-- ==== Sys2Proof/Word.lean ====
section
/-!
DEFINITION. The word types. A data value, cell, register, address or program-counter value is an unbounded integer,
the core type Int (00_scope R7, D2): nothing wraps and nothing is sign- or zero-extended (30_encoding R57,
40_datapath_alu R82). The only bits the spec numbers are those of the opcode tag (30_encoding R55).
-/

namespace Sys2Proof

/-- The opcode tag op[3:0] of the numbered form (30_encoding R55). -/
abbrev Tag := BitVec 4

end Sys2Proof
end

