-- ==== Sys2Proof/Config.lean ====
section
/-!
DEFINITION. The named parameters of the spec (00_scope R8, 93_implementation_defined section 1). They are fixed
for the whole run. The model carries them in State, so that a statement can be made for every value of them;
each defaults to the decision of 92_eei_decisions.
-/

namespace Sys2Proof

/-- REM_CONVENTION: the sign of the remainder for operands of mixed sign (D7, 40_datapath_alu R73). -/
inductive RemConvention where
  | floored
  | truncated
deriving DecidableEq, Repr

/-- The three named parameters with their defaults. -/
structure Config where
  /-- REM_CONVENTION (D7). -/
  remConvention : RemConvention := .floored
  /-- TICK_AT_INVOCATION (D11): with false, the micro-operation that stops the run adds no tick. -/
  tickAtInvocation : Bool := true
  /-- UNBACKED_CELL_FAULTS (D5): with false, there is a cell S that starts at 0. -/
  unbackedCellFaults : Bool := true
deriving DecidableEq, Repr

/-- Every parameter at the default the spec gives it. -/
def Config.standard : Config := {}

end Sys2Proof
end

