-- ==== Sys2Proof/Syntax.lean ====
section
/-!
DEFINITION. The instruction set: the closed set of twelve opcodes (30_encoding R51), the instruction with its
operands (R52, R53), and the instruction record that fills a program slot (R50, R55).
-/

namespace Sys2Proof

/-- The opcode names, in the order of 30_encoding R51. -/
inductive Opcode where
  | hlt
  | mov
  | cmp
  | cmpIndirectInc
  | remainder
  | add
  | inp
  | out
  | outChar
  | outIndirect
  | jmp
  | branchEq
deriving DecidableEq, Repr

/-- How many arguments the opcode's format has (30_encoding R52, R53). -/
def Opcode.arity : Opcode → Nat
  | .hlt => 0
  | .mov => 2
  | .cmp => 2
  | .cmpIndirectInc => 2
  | .remainder => 2
  | .add => 2
  | .inp => 1
  | .out => 1
  | .outChar => 1
  | .outIndirect => 1
  | .jmp => 1
  | .branchEq => 1

/-- The instructions. Every operand is an unbounded integer, unchecked until it is used (30_encoding R57, R58),
so every term of this type is well formed. -/
inductive Instr where
  /-- HLT (43_control R114). -/
  | hlt
  /-- MOV a0, a1 (44_move R119): source cell, destination cell. -/
  | mov (a0 a1 : Int)
  /-- CMP a0, a1 (45_alu_ops R120): cell subtracted, cell subtracted from. -/
  | cmp (a0 a1 : Int)
  /-- CMP_INDIRECT_INC a0, a1 (45_alu_ops R121): pointer cell, cell compared with the pointee. -/
  | cmpIndirectInc (a0 a1 : Int)
  /-- REMAINDER a0, a1 (45_alu_ops R122): dividend cell, divisor cell. -/
  | remainder (a0 a1 : Int)
  /-- ADD a0, a1 (45_alu_ops R123): addend cell, accumulating cell. -/
  | add (a0 a1 : Int)
  /-- IN a0 (46_io R125): destination cell. -/
  | inp (a0 : Int)
  /-- OUT a0 (46_io R126): source cell. -/
  | out (a0 : Int)
  /-- OUT_CHAR a0 (46_io R127): source cell. -/
  | outChar (a0 : Int)
  /-- OUT_INDIRECT a0 (46_io R128): pointer cell. -/
  | outIndirect (a0 : Int)
  /-- JMP a0 (43_control R115): target slot. -/
  | jmp (a0 : Int)
  /-- BRANCH_EQ a0 (43_control R116): target slot. -/
  | branchEq (a0 : Int)
deriving DecidableEq, Repr

/-- The opcode of an instruction. -/
def Instr.opcode : Instr → Opcode
  | .hlt => .hlt
  | .mov _ _ => .mov
  | .cmp _ _ => .cmp
  | .cmpIndirectInc _ _ => .cmpIndirectInc
  | .remainder _ _ => .remainder
  | .add _ _ => .add
  | .inp _ => .inp
  | .out _ => .out
  | .outChar _ => .outChar
  | .outIndirect _ => .outIndirect
  | .jmp _ => .jmp
  | .branchEq _ => .branchEq

/-- The argument list of an instruction. -/
def Instr.args : Instr → List Int
  | .hlt => []
  | .mov a0 a1 => [a0, a1]
  | .cmp a0 a1 => [a0, a1]
  | .cmpIndirectInc a0 a1 => [a0, a1]
  | .remainder a0 a1 => [a0, a1]
  | .add a0 a1 => [a0, a1]
  | .inp a0 => [a0]
  | .out a0 => [a0]
  | .outChar a0 => [a0]
  | .outIndirect a0 => [a0]
  | .jmp a0 => [a0]
  | .branchEq a0 => [a0]

/-- The instruction record {opcode, args, source address} of one program slot (30_encoding R50), the opcode in
numbered form (R55). The source address is carried and never read (D23). -/
structure Record where
  op : Tag
  args : List Int
  sourceAddress : Int := 0
deriving DecidableEq, Repr

end Sys2Proof
end

