-- ==== Sys2Proof/WellFormed.lean ====
section
/-!
DEFINITION. Well-formedness of instruction records and programs (30_encoding R54, R56): the check the launch
makes. It is written from the numbers of R53, R55 and R56, apart from the decoder, which Decode.lean writes
from the tag list; a statement says that the two agree.
-/

namespace Sys2Proof

/-- Tags 12 to 15 are reserved (30_encoding R56). -/
def Record.tagDefined (r : Record) : Bool := decide (r.op.toNat < 12)

/-- The arity of a defined tag: F0 for 0, F2 for 1 to 5, F1 for 6 to 11 (30_encoding R53, R55). -/
def arityOfTag (t : Tag) : Nat :=
  if t.toNat = 0 then 0 else if t.toNat ≤ 5 then 2 else 1

/-- Exactly as many arguments as the format says (30_encoding R54). -/
def Record.arityFits (r : Record) : Bool := decide (r.args.length = arityOfTag r.op)

/-- A record the launch admits (30_encoding R54, R56). -/
def Record.wf (r : Record) : Bool := r.tagDefined && r.arityFits

/-- The lowest slot, counted from i, whose record is malformed (30_encoding R54). -/
def firstMalformedFrom (i : Nat) : List Record → Option Nat
  | [] => none
  | r :: rs => if r.wf then firstMalformedFrom (i + 1) rs else some i

/-- The lowest malformed slot of a program (30_encoding R54). -/
def firstMalformed (p : List Record) : Option Nat := firstMalformedFrom 0 p

end Sys2Proof
end

