-- ==== Sys2Proof/Decode.lean ====
section
/-!
DEFINITION. The decoder and the encoder (30_encoding R50 to R58). The source has no bit-level format: an
instruction is a record of a 4-bit tag and integers. The decoder is total on records and on the numbered form
(op; a0; a1) of R55, and rejects by name.
-/

namespace Sys2Proof

/-- Why a record or a numbered form is no instruction. -/
inductive DecodeError where
  /-- The numbered form is empty: there is no tag. -/
  | emptyForm
  /-- The first integer of the numbered form is no 4-bit tag (DESIGN CHOICE, log 16). -/
  | notATag (op : Int)
  /-- Tags 12 to 15 name no instruction (30_encoding R56). -/
  | reservedTag (t : Tag)
  /-- The number of arguments is not the opcode's arity (30_encoding R54). -/
  | wrongArity (o : Opcode) (given : Nat)
deriving DecidableEq, Repr

/-- The opcode a tag names, none for the reserved tags (30_encoding R55, R56). -/
def opcodeOfTag (t : Tag) : Option Opcode :=
  match t.toNat with
  | 0 => some .hlt
  | 1 => some .mov
  | 2 => some .cmp
  | 3 => some .cmpIndirectInc
  | 4 => some .remainder
  | 5 => some .add
  | 6 => some .inp
  | 7 => some .out
  | 8 => some .outChar
  | 9 => some .outIndirect
  | 10 => some .jmp
  | 11 => some .branchEq
  | _ => none

/-- A form without arguments (F0, 30_encoding R52). -/
def takeNone (i : Instr) : List Int → Option Instr
  | [] => some i
  | _ :: _ => none

/-- A form with one argument (F1, 30_encoding R52). -/
def takeOne (f : Int → Instr) : List Int → Option Instr
  | [a0] => some (f a0)
  | _ => none

/-- A form with two arguments (F2, 30_encoding R52). -/
def takeTwo (f : Int → Int → Instr) : List Int → Option Instr
  | [a0, a1] => some (f a0 a1)
  | _ => none

/-- The instruction of an opcode and an argument list, when the arity fits (30_encoding R53). -/
def instrOf (o : Opcode) (args : List Int) : Option Instr :=
  match o with
  | .hlt => takeNone .hlt args
  | .mov => takeTwo .mov args
  | .cmp => takeTwo .cmp args
  | .cmpIndirectInc => takeTwo .cmpIndirectInc args
  | .remainder => takeTwo .remainder args
  | .add => takeTwo .add args
  | .inp => takeOne .inp args
  | .out => takeOne .out args
  | .outChar => takeOne .outChar args
  | .outIndirect => takeOne .outIndirect args
  | .jmp => takeOne .jmp args
  | .branchEq => takeOne .branchEq args

/-- Decode a program slot (42_control_unit R112: total on well-formed records; 30_encoding R57: each argument is
used exactly as the integer it is). The source address is not read (D23). -/
def decode (r : Record) : Except DecodeError Instr :=
  match opcodeOfTag r.op with
  | none => .error (.reservedTag r.op)
  | some o =>
    match instrOf o r.args with
    | some i => .ok i
    | none => .error (.wrongArity o r.args.length)

/-- The record of a numbered form (op; a0; a1), with absent fields left out (30_encoding R55). -/
def recordOfNumbered : List Int → Except DecodeError Record
  | [] => .error .emptyForm
  | op :: args =>
    if 0 ≤ op ∧ op < 16 then .ok { op := BitVec.ofNat 4 op.toNat, args := args }
    else .error (.notATag op)

/-- Decode an instruction in numbered form. -/
def decodeNumbered (ws : List Int) : Except DecodeError Instr :=
  match recordOfNumbered ws with
  | .ok r => decode r
  | .error e => .error e

/-- The tag of an opcode (30_encoding R55). -/
def tagOf : Opcode → Tag
  | .hlt => 0
  | .mov => 1
  | .cmp => 2
  | .cmpIndirectInc => 3
  | .remainder => 4
  | .add => 5
  | .inp => 6
  | .out => 7
  | .outChar => 8
  | .outIndirect => 9
  | .jmp => 10
  | .branchEq => 11

/-- Encode an instruction as the record of a slot, with the given source address. -/
def encodeAt (src : Int) (i : Instr) : Record :=
  { op := tagOf i.opcode, args := i.args, sourceAddress := src }

/-- Encode an instruction as a record, source address 0. -/
def encode (i : Instr) : Record := encodeAt 0 i

/-- Encode an instruction in numbered form (30_encoding R55). -/
def encodeNumbered (i : Instr) : List Int :=
  ((tagOf i.opcode).toNat : Int) :: i.args

/-- The record a word of spec/opcode_table.json stands for: the tag is op[3:0], the only bits the table's mask
0xF fixes. Bits above the tag have no place in a record and are not looked at (DESIGN CHOICE, log 4, safe:
host interface only). The operand words are zeros, as many as the arity. -/
def recordOfTableWord (nbits w : Nat) : Record :=
  { op := BitVec.ofNat 4 (w % 2 ^ nbits),
    args := List.replicate (arityOfTag (BitVec.ofNat 4 (w % 2 ^ nbits))) 0 }

/-- The instruction the decoder reads from a word of the opcode table. -/
def decodeTableWord (nbits w : Nat) : Option Instr :=
  match decode (recordOfTableWord nbits w) with
  | .ok i => some i
  | .error _ => none

end Sys2Proof
end

