-- ==== Sys2Proof/Machine/State.lean ====
section
/-!
DEFINITION. The state of the core (10_state R13 to R26), as plain data, with the stop outcomes and faults of
60_exceptions, and the state after reset (70_reset_and_hazards R154).
-/

namespace Sys2Proof.Machine

/-- The data memory M (10_state R18): (cell index, content) pairs, indices strictly rising, no content equal to
what an unlisted cell holds. A cell holds a whole integer, so the entry is an index and an integer (20_memory R37; DEDUCED, log 10). -/
abbrev Memory := List (Nat × Int)

/-- What a cell that nothing has written holds: "remaining cells zero" (20_memory R34). -/
def Memory.unlisted : Int := 0

/-- An output token (10_state R25). -/
inductive Token where
  /-- Char(v): one character with code v. -/
  | char (v : Int)
  /-- Num(v): the decimal string of v. -/
  | num (v : Int)
deriving DecidableEq, Repr

/-- The fault kinds (60_exceptions R132). -/
inductive FaultKind where
  | configurationError
  | outOfRangeAddress
  | divideByZero
  | programCounterOutOfRange
  | outputCodeOutOfRange
  | runawayExecution
deriving DecidableEq, Repr

/-- The fault causes, each with the value it records (60_exceptions R132 to R138). -/
inductive FaultCause where
  /-- Launch: S ≤ 0 (R133). -/
  | nonPositiveMemorySize (size : Int)
  /-- Launch: len(D) > S (R133, D6). -/
  | initialDataTooLong (len : Nat)
  /-- Launch: the lowest malformed slot (R133, D14). -/
  | malformedProgram (slot : Nat)
  /-- latch_data_address got an address outside 0..S (R134). -/
  | dataAddress (a : Int)
  /-- A memory access at a cell that is not backed (R134, D5). -/
  | unbackedCell (a : Int)
  /-- An input code outside 0..127 was popped (R134). -/
  | inputCode (c : Nat)
  /-- The divisor is 0 (R135): records the dividend. -/
  | divideByZero (dividend : Int)
  /-- Fetch at a PC outside 0..N-1 (R136): records the PC. -/
  | programCounterOutOfRange (pc : Int)
  /-- A character code outside 0..127 was to be output (R137, D21). -/
  | outputCodeOutOfRange (v : Int)
  /-- The harness reached the ceiling L (R138). -/
  | runawayExecution (ceiling : Int)
deriving DecidableEq, Repr

/-- The context of a fault: (PC, TC, IC) at the moment of the raise (60_exceptions R131). -/
structure Context where
  pc : Int
  tc : Nat
  ic : Nat
deriving DecidableEq, Repr

/-- Fault(kind, cause, context) (60_exceptions R131). The kind is a function of the cause (FaultCause.kind). -/
structure FaultRecord where
  cause : FaultCause
  context : Context
deriving DecidableEq, Repr

/-- The stop outcomes (10_state R26, 60_exceptions R130). -/
inductive StopOutcome where
  | halted
  | inputExhausted
  | fault (r : FaultRecord)
deriving DecidableEq, Repr

/-- STATUS (10_state R26). -/
inductive Status where
  | running
  | stopped (o : StopOutcome)
deriving DecidableEq, Repr

/-- The state of the core, the tuple of 10_state R13, and the launch parameters P, S and the named parameters,
which no micro-operation writes (R30; DESIGN CHOICE, log 2). -/
structure State where
  /-- ACC, the accumulator (R14). -/
  acc : Int
  /-- BR, the back-register (R15). -/
  br : Int
  /-- ALU, the ALU result latch (R16). -/
  alu : Int
  /-- DA, the data-address register (R17). -/
  da : Int
  /-- M, the data memory (R18). -/
  mem : Memory
  /-- PC, the program counter (R19). -/
  pc : Int
  /-- IR, the current instruction's opcode or none (R20). -/
  ir : Option Opcode
  /-- ARGS, the current instruction's arguments (R20). -/
  args : List Int
  /-- UPC, the position in the current microcode sequence (R21). -/
  upc : Nat
  /-- TC, the tick counter (R22). -/
  tc : Nat
  /-- IC, the instruction counter (R23). -/
  ic : Nat
  /-- Q, the input queue of character codes, front first (R24). -/
  queue : List Nat
  /-- O, the output sequence, oldest token first (R25). -/
  output : List Token
  /-- STATUS, the run status (R26). -/
  status : Status
  /-- P, the program: slot i is element i (20_memory R41). -/
  program : List Record
  /-- S, the number of data-memory cells (20_memory R33). -/
  size : Nat
  /-- The named parameters (00_scope R8). -/
  config : Config
deriving DecidableEq, Repr

/-- Why a step gives no next state. -/
inductive Fault where
  /-- Raised by step in a state whose STATUS is not Running: "Such a state has no next step" (60_exceptions R152).
  Carries the outcome that ended the run. Safe: nothing runs after a stop. The faults of 60_exceptions R132 are no
  constructor here: the instruction that raises one answers the next state, frozen, with STATUS holding it (log 1). -/
  | runEnded (o : StopOutcome)
deriving DecidableEq, Repr

/-- Why a step is refused. -/
inductive Refusal where
  /-- An instruction without a meaning, raised by exec's arms only. Safe: nothing is claimed of it. -/
  | notModelled (mnemonic : String)
  /-- Raised by step when the slot at PC is no well-formed instruction: the launch refuses such a program
  (30_encoding R54), so no launched machine meets it (log 5). Safe. -/
  | malformedSlot (why : DecodeError)
  /-- Raised when a micro-operation reads an argument that does not exist: ruled out by 42_control_unit R106, and
  no instruction reaches it (log 6). Safe. -/
  | noArgument (index : Nat)
deriving DecidableEq, Repr

/-- The machine right after reset (70_reset_and_hazards R154), with the smallest launch parameters: the empty
program, one cell, no initial data, no input, default parameters (DESIGN CHOICE, log 3, unsafe).
Machine/Harness.lean gives the state after reset for every launch. -/
def State.reset : State where
  acc := 0
  br := 0
  alu := 0
  da := 0
  mem := []
  pc := 0
  ir := none
  args := []
  upc := 0
  tc := 0
  ic := 0
  queue := []
  output := []
  status := .running
  program := []
  size := 1
  config := Config.standard

end Sys2Proof.Machine
end

