-- ==== Sys2Proof/Machine/Ops.lean ====
section
/-!
DEFINITION. The shared operations: memory access (20_memory R33 to R36), raising a stop outcome (60_exceptions
R130, R131), and the datapath operations that touch no ALU operand (40_datapath_alu R64 to R68, R77, R78).
-/

namespace Sys2Proof.Machine

/-- The kind of a cause (60_exceptions R132). -/
def FaultCause.kind : FaultCause → FaultKind
  | .nonPositiveMemorySize _ => .configurationError
  | .initialDataTooLong _ => .configurationError
  | .malformedProgram _ => .configurationError
  | .dataAddress _ => .outOfRangeAddress
  | .unbackedCell _ => .outOfRangeAddress
  | .inputCode _ => .outOfRangeAddress
  | .divideByZero _ => .divideByZero
  | .programCounterOutOfRange _ => .programCounterOutOfRange
  | .outputCodeOutOfRange _ => .outputCodeOutOfRange
  | .runawayExecution _ => .runawayExecution

/-- The code of a kind (60_exceptions R132, D8). -/
def FaultKind.code : FaultKind → Nat
  | .configurationError => 1
  | .outOfRangeAddress => 2
  | .divideByZero => 3
  | .programCounterOutOfRange => 4
  | .outputCodeOutOfRange => 5
  | .runawayExecution => 6

/-! ### Flow of control inside an instruction -/

/-- What an operation leaves: the state it goes on with, or the frozen state of a raise (00_scope R10,
41_microops R101), or the index of an argument that does not exist (log 6). -/
inductive Flow where
  | go (s : State)
  | raised (s : State)
  | noArgument (index : Nat)
deriving DecidableEq, Repr

/-- First then next: "a raise never returns" (00_scope R10), so nothing follows it (41_microops R101). -/
def Flow.andThen (f : Flow) (k : State → Flow) : Flow :=
  match f with
  | .go s => k s
  | .raised s => .raised s
  | .noArgument i => .noArgument i

/-- The outcome of an instruction: a stop is a next state whose STATUS holds it (DESIGN CHOICE, log 1). -/
def Flow.outcome : Flow → Host.Outcome State Fault Refusal
  | .go s => .next s
  | .raised s => .next s
  | .noArgument i => .refused (.noArgument i)

/-! ### Raising a stop outcome -/

/-- What a raise names: InputExhausted (60_exceptions R139) or a fault with its cause (R131). -/
inductive StopCause where
  | inputExhausted
  | fault (c : FaultCause)
deriving DecidableEq, Repr

/-- (PC, TC, IC) now (60_exceptions R131). -/
def State.context (s : State) : Context := { pc := s.pc, tc := s.tc, ic := s.ic }

/-- The stop outcome of a cause raised in this state (60_exceptions R130, R131). -/
def State.outcomeOf (s : State) : StopCause → StopOutcome
  | .inputExhausted => .inputExhausted
  | .fault c => .fault { cause := c, context := s.context }

/-- End the run: STATUS holds the outcome and the rest of the state freezes as it stands (60_exceptions R131).
This is all the hardware's exception entry: no vector, mask, mode or saved register (R141). There is no return
from it (R142). -/
def State.stopWith (s : State) (c : StopCause) : State :=
  { s with status := .stopped (s.outcomeOf c) }

/-- raise K(info) (00_scope R10): the one operation that takes an exception. -/
def raise (c : StopCause) (s : State) : Flow := .raised (s.stopWith c)

/-! ### Data memory -/

/-- The content of a cell. -/
def Memory.read : Memory → Nat → Int
  | [], _ => Memory.unlisted
  | (k, v) :: m, a => if k = a then v else Memory.read m a

/-- Store a value in a cell, keeping the canonical form: storing what an unlisted cell holds takes the entry out. -/
def Memory.write : Memory → Nat → Int → Memory
  | [], a, v => if v = Memory.unlisted then [] else [(a, v)]
  | (k, w) :: m, a, v =>
    if a < k then
      if v = Memory.unlisted then (k, w) :: m else (a, v) :: (k, w) :: m
    else if a = k then
      if v = Memory.unlisted then m else (a, v) :: m
    else (k, w) :: Memory.write m a v

/-- The canonical form: every entry lies above the bound, entries rise strictly, none holds the unlisted value. -/
def Memory.wfAbove : Nat → Memory → Bool
  | _, [] => true
  | lo, (k, v) :: m => decide (lo ≤ k) && decide (v ≠ Memory.unlisted) && Memory.wfAbove (k + 1) m

/-- The canonical form of a memory. -/
def Memory.wf (m : Memory) : Bool := Memory.wfAbove 0 m

/-- Every listed cell lies below the bound. -/
def Memory.below (n : Nat) (m : Memory) : Bool := m.all fun e => decide (e.1 < n)

/-- How many cells are backed: S, or S + 1 when UNBACKED_CELL_FAULTS is false (20_memory R36,
93_implementation_defined section 1; DEDUCED, log 13). -/
def cellCountOf (c : Config) (size : Nat) : Nat := if c.unbackedCellFaults then size else size + 1

/-- How many cells of this machine are backed. -/
def State.cellCount (s : State) : Nat := cellCountOf s.config s.size

/-- A backed cell (20_memory R36). -/
def isBacked (c : Config) (size : Nat) (a : Int) : Bool := decide (0 ≤ a ∧ a < (cellCountOf c size : Int))

/-- A backed cell of this machine. -/
def State.backed (s : State) (a : Int) : Bool := isBacked s.config s.size a

/-- The content of cell a. -/
def State.cell (s : State) (a : Int) : Int := s.mem.read a.toNat

/-- Memory with value v in cell a. -/
def State.storeCell (s : State) (a v : Int) : Memory := s.mem.write a.toNat v

/-- MemRead(addr, 1) (20_memory R36; 00_scope R10: both primitives fault when addr is not a backed cell;
DEDUCED for addresses outside 0..S, log 9). -/
def memRead (s : State) (addr : Int) : Except FaultCause Int :=
  if s.backed addr then .ok (s.cell addr) else .error (.unbackedCell addr)

/-- MemWrite(addr, 1, v) (20_memory R36). -/
def memWrite (s : State) (addr v : Int) : Flow :=
  if s.backed addr then .go { s with mem := s.storeCell addr v }
  else raise (.fault (.unbackedCell addr)) s

/-! ### Latches (40_datapath_alu R64 to R68) -/

/-- ARGS[i] (00_scope R9). 42_control_unit R106: every argument a micro-operation reads exists. -/
def withArg (i : Nat) (k : Int → Flow) (s : State) : Flow :=
  match s.args[i]? with
  | some a => k a
  | none => .noArgument i

/-- The range check of latch_data_address: 0..S, the inclusive upper bound kept (40_datapath_alu R64). -/
def inLatchRange (size : Nat) (addr : Int) : Bool := decide (0 ≤ addr ∧ addr ≤ (size : Int))

/-- DA <- addr, when the range check passes (40_datapath_alu R64). -/
def latchAddress (addr : Int) (s : State) : Flow :=
  if inLatchRange s.size addr then .go { s with da := addr }
  else raise (.fault (.dataAddress addr)) s

/-- A code in 0..127 (40_datapath_alu R67, R78). -/
def isCharCode (v : Int) : Bool := decide (0 ≤ v ∧ v ≤ 127)

/-- latch_accumulator(ALU) (R65). -/
def latchAccFromAlu (s : State) : Flow := .go { s with acc := s.alu }

/-- latch_accumulator(MEMORY) (R66). -/
def latchAccFromMemory (s : State) : Flow :=
  match memRead s s.da with
  | .ok v => .go { s with acc := v }
  | .error c => raise (.fault c) s

/-- latch_accumulator(INPUT) (R67): the character is popped before its code is checked (D19). -/
def latchAccFromInput (s : State) : Flow :=
  match s.queue with
  | [] => raise .inputExhausted s
  | c :: rest =>
    if isCharCode (c : Int) then .go { s with queue := rest, acc := (c : Int) }
    else raise (.fault (.inputCode c)) { s with queue := rest }

/-- latch_back_register() (R68). -/
def latchBackRegister (s : State) : Flow := .go { s with br := s.alu }

/-! ### Output (40_datapath_alu R78) -/

/-- emit_output(as_character=true) (R78, D21). -/
def emitChar (s : State) : Flow :=
  if isCharCode s.acc then .go { s with output := s.output ++ [.char s.acc] }
  else raise (.fault (.outputCodeOutOfRange s.acc)) s

/-- emit_output(as_character=false) (R78). -/
def emitNum (s : State) : Flow := .go { s with output := s.output ++ [.num s.acc] }

end Sys2Proof.Machine
end

