-- ==== Sys2Proof/Machine/Flags.lean ====
section
/-!
DEFINITION. Flags: the hardware has none (10_state R27; the ALU has no flag output, 40_datapath_alu R82). The one
condition a program can test is is_zero, which reads ACC and stores nothing (R81).
-/

namespace Sys2Proof.Machine

/-- is_zero() (40_datapath_alu R81). -/
def State.isZero (s : State) : Bool := decide (s.acc = 0)

end Sys2Proof.Machine
end

