-- ==== Sys2Proof/Machine/Operands.lean ====
section
/-!
DEFINITION. The multiplexers, every selector value the spec gives them (40_datapath_alu R64, R65 to R67, R69, R70,
R77, R84: selector values that no micro-operation drives keep their meanings).
-/

namespace Sys2Proof.Machine

/-- The address multiplexer of latch_data_address (R64). -/
inductive AddressSel where
  | arg0
  | arg1
  | acc
deriving DecidableEq, Repr

/-- The accumulator source of latch_accumulator (R65 to R67). -/
inductive AccSel where
  | alu
  | memory
  | input
deriving DecidableEq, Repr

/-- The left operand multiplexer of the ALU (R69). -/
inductive LeftSel where
  | memory
  | backRegister
deriving DecidableEq, Repr

/-- The right operand multiplexer of the ALU (R70). -/
inductive RightSel where
  | accumulator
  | zero
deriving DecidableEq, Repr

/-- The memory-data multiplexer of write_memory (R77). -/
inductive DataSel where
  | acc
  | br
deriving DecidableEq, Repr

/-- latch_data_address(sel) (R64). -/
def latchDataAddress (sel : AddressSel) (s : State) : Flow :=
  match sel with
  | .arg0 => withArg 0 (fun a => latchAddress a s) s
  | .arg1 => withArg 1 (fun a => latchAddress a s) s
  | .acc => latchAddress s.acc s

/-- latch_accumulator(source) (R65 to R67). -/
def latchAccumulator (sel : AccSel) (s : State) : Flow :=
  match sel with
  | .alu => latchAccFromAlu s
  | .memory => latchAccFromMemory s
  | .input => latchAccFromInput s

/-- left(lsel) (R69). -/
def leftOperand (sel : LeftSel) (s : State) : Except FaultCause Int :=
  match sel with
  | .memory => memRead s s.da
  | .backRegister => .ok s.br

/-- right(rsel) (R70). -/
def rightOperand (sel : RightSel) (s : State) : Int :=
  match sel with
  | .accumulator => s.acc
  | .zero => 0

/-- write_memory(dsel) (R77). -/
def writeMemory (sel : DataSel) (s : State) : Flow :=
  match sel with
  | .acc => memWrite s s.da s.acc
  | .br => memWrite s s.da s.br

end Sys2Proof.Machine
end

