-- ==== Sys2Proof/Machine/Alu.lean ====
section
/-!
DEFINITION. The ALU (40_datapath_alu R71 to R76, R82): exact integer arithmetic, four operations, no flags.
-/

namespace Sys2Proof.Machine

/-- The ALU operations (40_datapath_alu R71). -/
inductive AluOp where
  | cmp
  | remainder
  | add
  | increment
deriving DecidableEq, Repr

/-- a mod b under a convention: floored (00_scope R9, D7), or truncated, with the sign of the dividend
(93_implementation_defined section 1). -/
def remBy (conv : RemConvention) (a b : Int) : Int :=
  match conv with
  | .floored => Int.fmod a b
  | .truncated => Int.tmod a b

/-- f(op, l, r) (R72 to R75). The right operand is ignored by INCREMENT. REMAINDER is right mod left. -/
def aluResult (conv : RemConvention) (op : AluOp) (l r : Int) : Except FaultCause Int :=
  match op with
  | .cmp => .ok (l - r)
  | .remainder => if l = 0 then .error (.divideByZero r) else .ok (remBy conv r l)
  | .add => .ok (l + r)
  | .increment => .ok (l + 1)

/-- alu_apply(op, lsel, rsel) (R71): writes only ALU, and nothing when an operand or the operation raises. -/
def aluApply (op : AluOp) (lsel : LeftSel) (rsel : RightSel) (s : State) : Flow :=
  match leftOperand lsel s with
  | .error c => raise (.fault c) s
  | .ok l =>
    match aluResult s.config.remConvention op l (rightOperand rsel s) with
    | .error c => raise (.fault c) s
    | .ok v => .go { s with alu := v }

end Sys2Proof.Machine
end

