-- ==== Sys2Proof/Machine/MicroOps.lean ====
section
/-!
DEFINITION. The control word (40_datapath_alu R83) and the sixteen micro-operations (41_microops R85 to R102), each
an ordered list of signals carried out in list order within one tick.
-/

namespace Sys2Proof.Machine

/-- How PC is written (40_datapath_alu R83, PCSEL). -/
inductive PcMode where
  | inc
  | jump
  | brz
deriving DecidableEq, Repr

/-- What a token is output as (40_datapath_alu R83, EMIT). -/
inductive EmitMode where
  | num
  | char
deriving DecidableEq, Repr

/-- The control signals (40_datapath_alu R83). -/
inductive Signal where
  | lda (sel : AddressSel)
  | lacc (src : AccSel)
  | lbr
  | aluop (op : AluOp) (lsel : LeftSel) (rsel : RightSel)
  | wr (dsel : DataSel)
  | emit (mode : EmitMode)
  | pcsel (mode : PcMode)
  | haltsig
deriving DecidableEq, Repr

/-- program_counter += 1 (41_microops R97): exactly 1, unchecked (30_encoding R60). -/
def pcNext (s : State) : Flow := .go { s with pc := s.pc + 1 }

/-- program_counter = a[0] (41_microops R98): the target is used unchanged and unchecked. -/
def pcJump (s : State) : Flow := withArg 0 (fun a => .go { s with pc := a }) s

/-- Branch if zero (41_microops R100): reads the status signal ZERO (40_datapath_alu R83). -/
def pcBranchIfZero (s : State) : Flow := if s.isZero then pcJump s else pcNext s

/-- Signal normal termination (41_microops R99): sets STATUS and nothing else. -/
def haltSignal (s : State) : Flow := .go { s with status := .stopped .halted }

/-- Carry out one control signal (40_datapath_alu R83). -/
def performSignal (sig : Signal) (s : State) : Flow :=
  match sig with
  | .lda sel => latchDataAddress sel s
  | .lacc src => latchAccumulator src s
  | .lbr => latchBackRegister s
  | .aluop op lsel rsel => aluApply op lsel rsel s
  | .wr dsel => writeMemory dsel s
  | .emit .num => emitNum s
  | .emit .char => emitChar s
  | .pcsel .inc => pcNext s
  | .pcsel .jump => pcJump s
  | .pcsel .brz => pcBranchIfZero s
  | .haltsig => haltSignal s

/-- Carry out signals in list order; each sees the effects of those before it (00_scope R11, 41_microops R101). -/
def performSignals : List Signal → State → Flow
  | [], s => .go s
  | sig :: rest, s => (performSignal sig s).andThen (performSignals rest)

/-- The micro-operation identifiers, in the order of 30_encoding R59. -/
inductive MicroOp where
  | readArg0
  | writeFromInput
  | readIndirect
  | writeArg1
  | writeArg0
  | writeBrArg0
  | aluCmp
  | aluRem
  | aluAdd
  | incAtArg0
  | outNum
  | outChar
  | nextPc
  | jump
  | halt
  | branchIfZero
deriving DecidableEq, Repr

/-- The number of a micro-operation (30_encoding R59). -/
def MicroOp.id : MicroOp → Nat
  | .readArg0 => 0
  | .writeFromInput => 1
  | .readIndirect => 2
  | .writeArg1 => 3
  | .writeArg0 => 4
  | .writeBrArg0 => 5
  | .aluCmp => 6
  | .aluRem => 7
  | .aluAdd => 8
  | .incAtArg0 => 9
  | .outNum => 10
  | .outChar => 11
  | .nextPc => 12
  | .jump => 13
  | .halt => 14
  | .branchIfZero => 15

/-- The control word of each micro-operation (41_microops R85 to R100). -/
def controlWord : MicroOp → List Signal
  | .readArg0 => [.lda .arg0, .lacc .memory]
  | .writeFromInput => [.lacc .input, .lda .arg0, .wr .acc]
  | .readIndirect => [.lda .acc, .lacc .memory]
  | .writeArg1 => [.lda .arg1, .wr .acc]
  | .writeArg0 => [.lda .arg0, .wr .acc]
  | .writeBrArg0 => [.lda .arg0, .wr .br]
  | .aluCmp => [.lda .arg1, .aluop .cmp .memory .accumulator, .lacc .alu]
  | .aluRem => [.lda .arg1, .aluop .remainder .memory .accumulator, .lacc .alu]
  | .aluAdd => [.lda .arg1, .aluop .add .memory .accumulator, .lacc .alu]
  | .incAtArg0 => [.lda .arg0, .aluop .increment .memory .zero, .lbr]
  | .outNum => [.emit .num]
  | .outChar => [.emit .char]
  | .nextPc => [.pcsel .inc]
  | .jump => [.pcsel .jump]
  | .halt => [.haltsig]
  | .branchIfZero => [.pcsel .brz]

/-- Perform one micro-operation (41_microops R101, R102). -/
def perform (op : MicroOp) (s : State) : Flow := performSignals (controlWord op) s

end Sys2Proof.Machine
end

