-- ==== Sys2Proof/Machine/Microcode.lean ====
section
/-!
DEFINITION. The microcode ROM and the sequencer (42_control_unit R103, R104, R106, R107, R113).
-/

namespace Sys2Proof.Machine

/-- The microcode ROM (42_control_unit R103). -/
def microcode : Opcode → List MicroOp
  | .hlt => [.halt]
  | .mov => [.readArg0, .writeArg1, .nextPc]
  | .cmp => [.readArg0, .aluCmp, .nextPc]
  | .cmpIndirectInc => [.readArg0, .readIndirect, .aluCmp, .incAtArg0, .writeBrArg0, .nextPc]
  | .remainder => [.readArg0, .aluRem, .nextPc]
  | .add => [.readArg0, .aluAdd, .writeArg1, .nextPc]
  | .inp => [.writeFromInput, .nextPc]
  | .out => [.readArg0, .outNum, .nextPc]
  | .outChar => [.readArg0, .outChar, .nextPc]
  | .outIndirect => [.readArg0, .readIndirect, .outChar, .nextPc]
  | .jmp => [.jump]
  | .branchEq => [.branchIfZero]

/-- IR <- opcode; ARGS <- args; UPC <- 0 (42_control_unit R104, R106). -/
def State.latchInstr (s : State) (o : Opcode) (args : List Int) : State :=
  { s with ir := some o, args := args, upc := 0 }

/-- The tick counted when a micro-operation is invoked, before its effect (42_control_unit R107, D11). -/
def State.tickBefore (s : State) : State :=
  { s with tc := s.tc + if s.config.tickAtInvocation then 1 else 0 }

/-- With TICK_AT_INVOCATION = false, the tick of a micro-operation that did not stop the run, counted after its
effect (93_implementation_defined section 1; DEDUCED, log 12). -/
def State.tickAfter (s : State) : State :=
  { s with tc := s.tc + if s.config.tickAtInvocation || decide (s.status ≠ .running) then 0 else 1 }

/-- UPC <- UPC + 1 (42_control_unit R104). -/
def State.upcNext (s : State) : State := { s with upc := s.upc + 1 }

/-- Invoke one micro-operation: one tick, its effect, and the sequencer moves on (42_control_unit R104, R107). -/
def invoke (op : MicroOp) (s : State) : Flow :=
  (perform op s.tickBefore).andThen fun t => .go t.tickAfter.upcNext

/-- Invoke the micro-operations of a sequence in order, skipping and repeating none (42_control_unit R107). -/
def runSequence : List MicroOp → State → Flow
  | [], s => .go s
  | op :: ops, s => (invoke op s).andThen (runSequence ops)

/-- The whole instruction after a successful fetch: latch it and run its microcode (42_control_unit R104). -/
def runInstruction (o : Opcode) (args : List Int) (s : State) : Host.Outcome State Fault Refusal :=
  (runSequence (microcode o) (s.latchInstr o args)).outcome

/-- The small step of 42_control_unit R113: invoke the micro-operation at UPC of the current opcode's sequence.
R113 gives it inside a running instruction only. DESIGN CHOICE, log 15, for the rest: a sequence at its end, or no
instruction at all, is left as it is; STATUS is not tested, so from a stopped state in mid-sequence the
micro-operation at UPC is invoked again, with its tick. A run never does that: a raise ends microSteps (R101), and
step is what tests STATUS (60_exceptions R152). -/
def microStep (s : State) : Flow :=
  match s.ir with
  | none => .go s
  | some o =>
    match (microcode o)[s.upc]? with
    | some op => invoke op s
    | none => .go s

/-- n small steps (42_control_unit R113). -/
def microSteps : Nat → State → Flow
  | 0, s => .go s
  | n + 1, s => (microStep s).andThen (microSteps n)

end Sys2Proof.Machine
end

