-- ==== Sys2Proof/Machine/AluOps.lean ====
section
/-!
DEFINITION. The meanings of the ALU instructions (45_alu_ops R120 to R124).
-/

namespace Sys2Proof.Machine

/-- CMP a0, a1 (45_alu_ops R120). -/
def execCmp (a0 a1 : Int) (s : State) : Host.Outcome State Fault Refusal := runInstruction .cmp [a0, a1] s

/-- CMP_INDIRECT_INC a0, a1 (45_alu_ops R121). -/
def execCmpIndirectInc (a0 a1 : Int) (s : State) : Host.Outcome State Fault Refusal :=
  runInstruction .cmpIndirectInc [a0, a1] s

/-- REMAINDER a0, a1 (45_alu_ops R122). -/
def execRemainder (a0 a1 : Int) (s : State) : Host.Outcome State Fault Refusal :=
  runInstruction .remainder [a0, a1] s

/-- ADD a0, a1 (45_alu_ops R123). -/
def execAdd (a0 a1 : Int) (s : State) : Host.Outcome State Fault Refusal := runInstruction .add [a0, a1] s

end Sys2Proof.Machine
end

