-- ==== Sys2Proof/Machine/Control.lean ====
section
/-!
DEFINITION. The meanings of the control instructions (43_control R114 to R118).
-/

namespace Sys2Proof.Machine

/-- HLT (43_control R114). -/
def execHlt (s : State) : Host.Outcome State Fault Refusal := runInstruction .hlt [] s

/-- JMP a0 (43_control R115). -/
def execJmp (a0 : Int) (s : State) : Host.Outcome State Fault Refusal := runInstruction .jmp [a0] s

/-- BRANCH_EQ a0 (43_control R116). -/
def execBranchEq (a0 : Int) (s : State) : Host.Outcome State Fault Refusal := runInstruction .branchEq [a0] s

end Sys2Proof.Machine
end

