-- ==== Sys2Proof/Machine/Io.lean ====
section
/-!
DEFINITION. The meanings of the input and output instructions (46_io R125 to R129).
-/

namespace Sys2Proof.Machine

/-- IN a0 (46_io R125). -/
def execInp (a0 : Int) (s : State) : Host.Outcome State Fault Refusal := runInstruction .inp [a0] s

/-- OUT a0 (46_io R126). -/
def execOut (a0 : Int) (s : State) : Host.Outcome State Fault Refusal := runInstruction .out [a0] s

/-- OUT_CHAR a0 (46_io R127). -/
def execOutChar (a0 : Int) (s : State) : Host.Outcome State Fault Refusal := runInstruction .outChar [a0] s

/-- OUT_INDIRECT a0 (46_io R128). -/
def execOutIndirect (a0 : Int) (s : State) : Host.Outcome State Fault Refusal :=
  runInstruction .outIndirect [a0] s

end Sys2Proof.Machine
end

