-- ==== Sys2Proof/Machine/Move.lean ====
section
/-!
DEFINITION. The meaning of the move instruction (44_move R119).
-/

namespace Sys2Proof.Machine

/-- MOV a0, a1 (44_move R119). -/
def execMov (a0 a1 : Int) (s : State) : Host.Outcome State Fault Refusal := runInstruction .mov [a0, a1] s

end Sys2Proof.Machine
end

