-- ==== Sys2Proof/Machine/Dispatch.lean ====
section
/-!
DEFINITION. One arm per instruction (42_control_unit R112: no wildcard).
-/

namespace Sys2Proof.Machine

/-- The whole instruction after a successful fetch (42_control_unit R104). -/
def exec (i : Instr) (s : State) : Host.Outcome State Fault Refusal :=
  match i with
  | .hlt => Sys2Proof.Machine.execHlt s
  | .mov a0 a1 => Sys2Proof.Machine.execMov a0 a1 s
  | .cmp a0 a1 => Sys2Proof.Machine.execCmp a0 a1 s
  | .cmpIndirectInc a0 a1 => Sys2Proof.Machine.execCmpIndirectInc a0 a1 s
  | .remainder a0 a1 => Sys2Proof.Machine.execRemainder a0 a1 s
  | .add a0 a1 => Sys2Proof.Machine.execAdd a0 a1 s
  | .inp a0 => Sys2Proof.Machine.execInp a0 s
  | .out a0 => Sys2Proof.Machine.execOut a0 s
  | .outChar a0 => Sys2Proof.Machine.execOutChar a0 s
  | .outIndirect a0 => Sys2Proof.Machine.execOutIndirect a0 s
  | .jmp a0 => Sys2Proof.Machine.execJmp a0 s
  | .branchEq a0 => Sys2Proof.Machine.execBranchEq a0 s

end Sys2Proof.Machine
end

