-- ==== Sys2Proof/Machine/Fetch.lean ====
section
/-!
DEFINITION. Fetch and the frame of a step around the instruction (42_control_unit R104 to R108).
-/

namespace Sys2Proof.Machine

/-- IC <- IC + 1 at the start of every step, before fetch (42_control_unit R108). -/
def State.countInstruction (s : State) : State := { s with ic := s.ic + 1 }

/-- P[PC], none when PC is outside 0..N-1; a negative PC never wraps (42_control_unit R105, D15). -/
def State.slotAtPc (s : State) : Option Record :=
  if 0 ≤ s.pc then s.program[s.pc.toNat]? else none

/-- A step from a running state: count it, fetch, and run the instruction fetched (42_control_unit R104 to R106). -/
def stepRunning (run : Instr → State → Host.Outcome State Fault Refusal) (s : State) :
    Host.Outcome State Fault Refusal :=
  match s.slotAtPc with
  | none => .next (s.countInstruction.stopWith (.fault (.programCounterOutOfRange s.pc)))
  | some r =>
    match decode r with
    | .ok i => run i s.countInstruction
    | .error e => .refused (.malformedSlot e)

/-- A step: none from a state whose STATUS is not Running (60_exceptions R152). -/
def stepWith (run : Instr → State → Host.Outcome State Fault Refusal) (s : State) :
    Host.Outcome State Fault Refusal :=
  match s.status with
  | .running => stepRunning run s
  | .stopped o => .fault (.runEnded o)

/-- The program with record r in slot k, made longer with copies of r where it has no slot k. -/
def placeRecord (r : Record) : Nat → List Record → List Record
  | 0, [] => [r]
  | 0, _ :: rest => r :: rest
  | k + 1, [] => r :: placeRecord r k []
  | k + 1, x :: rest => x :: placeRecord r k rest

/-- The state in which the next step fetches r: r in the slot PC names, PC at 0 where it is negative, STATUS
Running (the load of a program by the launch: DEDUCED, log 7). -/
def State.withRecord (s : State) (r : Record) : State :=
  { s with
    program := placeRecord r s.pc.toNat s.program
    pc := if 0 ≤ s.pc then s.pc else 0
    status := .running }

end Sys2Proof.Machine
end

