-- ==== Sys2Proof/Machine/Step.lean ====
section
/-!
DEFINITION. One step of the machine: one instruction (42_control_unit R104).
-/

namespace Sys2Proof.Machine

/-- One step: fetch, then the whole microcode sequence of the opcode (42_control_unit R104). -/
def step (s : State) : Host.Outcome State Fault Refusal := stepWith exec s

/-- s with the instruction of a table word in the slot the next step fetches. -/
def State.withFetchWord (s : State) (nbits w : Nat) : State := s.withRecord (recordOfTableWord nbits w)

end Sys2Proof.Machine
end

