-- ==== Sys2Proof/Machine/Output.lean ====
section
/-!
DEFINITION. Rendering the output sequence as text (40_datapath_alu R79, R80; 60_exceptions R150). Text is a list of
characters.
-/

namespace Sys2Proof.Machine

/-- The digit characters. -/
def digitChar (d : Nat) : Char := Char.ofNat (48 + d)

/-- Decimal digits of n, most significant first, without leading zeros, 0 for zero (40_datapath_alu R80). The fuel
is at least the number of digits when it is n. -/
def decimalDigitsFuel : Nat → Nat → List Char
  | 0, n => [digitChar (n % 10)]
  | f + 1, n => if n < 10 then [digitChar n] else decimalDigitsFuel f (n / 10) ++ [digitChar (n % 10)]

/-- Decimal digits of a natural number. -/
def decimalDigits (n : Nat) : List Char := decimalDigitsFuel n n

/-- The decimal string of an integer: a '-' when it is negative, then the digits (40_datapath_alu R80, D9). -/
def decimalString (v : Int) : List Char :=
  if v < 0 then '-' :: decimalDigits v.natAbs else decimalDigits v.natAbs

/-- The text of a token (40_datapath_alu R79, R80); the characters are numbered as ASCII (PRESUMED, log 11). -/
def Token.render : Token → List Char
  | .char v => [Char.ofNat v.toNat]
  | .num v => decimalString v

/-- output_text: the tokens' texts in order, with no separator (60_exceptions R150, D10). -/
def outputText (o : List Token) : List Char := o.flatMap Token.render

end Sys2Proof.Machine
end

