-- ==== Sys2Proof/Machine/Harness.lean ====
section
/-!
DEFINITION. The host harness around the core: the launch checks (70_reset_and_hazards R153), reset from the launch
parameters (R154), the run with its iteration ceiling (60_exceptions R149) and its result (R150).
-/

namespace Sys2Proof.Machine

/-- The launch parameters P, S, D, Q0 and L (00_scope R6) and the named parameters (R8). -/
structure Launch where
  program : List Record
  size : Int
  data : List Int
  input : List Nat
  ceiling : Int
  config : Config := Config.standard
deriving DecidableEq, Repr

/-- The first launch check that fails, in the order of 70_reset_and_hazards R153. -/
def launchCheck (l : Launch) : Option FaultCause :=
  if l.size ≤ 0 then some (.nonPositiveMemorySize l.size)
  else if l.size < (l.data.length : Int) then some (.initialDataTooLong l.data.length)
  else
    match firstMalformed l.program with
    | some i => some (.malformedProgram i)
    | none => none

/-- Memory with the listed values in cells i, i+1, … (20_memory R34). -/
def Memory.ofData : Nat → List Int → Memory
  | _, [] => []
  | i, v :: vs => if v = Memory.unlisted then Memory.ofData (i + 1) vs else (i, v) :: Memory.ofData (i + 1) vs

/-- Reset with the launch parameters (70_reset_and_hazards R154). -/
def bootState (l : Launch) : State :=
  { State.reset with
    mem := Memory.ofData 0 l.data
    queue := l.input
    program := l.program
    size := l.size.toNat
    config := l.config }

/-- Launch: ConfigurationError with context (0, 0, 0), or the state after reset (70_reset_and_hazards R153, R154). -/
def launch (l : Launch) : Except FaultRecord State :=
  match launchCheck l with
  | some c => .error { cause := c, context := { pc := 0, tc := 0, ic := 0 } }
  | none => .ok (bootState l)

/-- The end of a run at the ceiling (60_exceptions R138, R149). -/
def State.runaway (s : State) (ceiling : Int) : State := s.stopWith (.fault (.runawayExecution ceiling))

/-- The harness loop (60_exceptions R149): the ceiling is checked before every step. Each step adds 1 to IC, so
fuel L - IC is enough; with none left the loop has reached the ceiling (DEDUCED, log 14). -/
def drive (ceiling : Int) : Nat → State → State
  | 0, s => if ceiling ≤ (s.ic : Int) then s.runaway ceiling else s
  | fuel + 1, s =>
    if ceiling ≤ (s.ic : Int) then s.runaway ceiling
    else
      match step s with
      | .next t =>
        match t.status with
        | .running => drive ceiling fuel t
        | .stopped _ => t
      | .fault _ => s
      | .refused _ => s

/-- The last state of the run of a launched machine. -/
def finalState (l : Launch) (s : State) : State := drive l.ceiling l.ceiling.toNat s

/-- What a run gives its caller (60_exceptions R150). -/
inductive RunReport where
  /-- (output_text, instruction_count, tick_count); warning for InputExhausted. -/
  | completed (text : List Char) (instructionCount tickCount : Nat) (warning : Bool)
  /-- A fatal error with the fault record, and no result triple. -/
  | fatal (r : FaultRecord)
deriving DecidableEq, Repr

/-- The report of a final state, none for a state that still runs (60_exceptions R150). -/
def State.report (s : State) : Option RunReport :=
  match s.status with
  | .running => none
  | .stopped .halted => some (.completed (outputText s.output) s.ic s.tc false)
  | .stopped .inputExhausted => some (.completed (outputText s.output) s.ic s.tc true)
  | .stopped (.fault r) => some (.fatal r)

/-- run(program, input_characters, memory_size, iteration_ceiling, initial_data) (60_exceptions R149, R150). -/
def run (l : Launch) : Option RunReport :=
  match launch l with
  | .error r => some (.fatal r)
  | .ok s => (finalState l s).report

end Sys2Proof.Machine
end

