-- ==== Sys2Proof/Safety.lean ====
section
/-!
DEFINITION. What counts as a safe run, in the terms claims use (60_exceptions R152), and the machine's invariant:
what holds of every state a launch can reach.
-/

namespace Sys2Proof.Machine

/-- The run has ended (60_exceptions R152). -/
def State.ended (s : State) : Prop := s.status ≠ .running

/-- The run has ended in a fault (60_exceptions R130, R131). -/
def State.faulted (s : State) : Prop := ∃ r, s.status = .stopped (.fault r)

/-- The run has ended normally: Halted or InputExhausted (60_exceptions R130). -/
def State.endedNormally (s : State) : Prop :=
  s.status = .stopped .halted ∨ s.status = .stopped .inputExhausted

/-- t is reached from s by steps. -/
inductive Reaches : State → State → Prop where
  | refl (s : State) : Reaches s s
  | tail {s t u : State} : Reaches s t → step t = .next u → Reaches s u

/-- No state reached from s is faulted. -/
def SafeFrom (s : State) : Prop := ∀ t, Reaches s t → ¬ t.faulted

/-- The shape of a claim about a program (60_exceptions R152): the run of the launch ends normally with a final
state that satisfies the postcondition. -/
def EndsWith (l : Launch) (post : State → Prop) : Prop :=
  ∃ s, launch l = .ok s ∧ (finalState l s).endedNormally ∧ post (finalState l s)

/-- A token the hardware can have output: a character token has a code in 0..127 (40_datapath_alu R78, R79). -/
def Token.wf : Token → Bool
  | .char v => decide (0 ≤ v ∧ v ≤ 127)
  | .num _ => true

/-- IR, ARGS and UPC fit together: no opcode and no arguments, or an opcode with as many arguments as its format
has and a position in its sequence (10_state R20, R21). -/
def State.currentFits (s : State) : Prop :=
  match s.ir with
  | none => s.args = [] ∧ s.upc = 0
  | some o => s.args.length = o.arity ∧ s.upc ≤ (microcode o).length

/-- What holds of every state a launch can reach. -/
structure State.Inv (s : State) : Prop where
  /-- S > 0 (20_memory R33). -/
  size_pos : 0 < s.size
  /-- 0 ≤ DA (10_state R17). -/
  da_nonneg : 0 ≤ s.da
  /-- DA ≤ S, S included (10_state R17). -/
  da_le_size : s.da ≤ (s.size : Int)
  /-- The memory is in canonical form. -/
  mem_wf : s.mem.wf = true
  /-- No cell outside the memory is listed (20_memory R33). -/
  mem_below : s.mem.below s.cellCount = true
  /-- Every slot of the program is well formed (30_encoding R54). -/
  program_wf : ∀ r ∈ s.program, r.wf = true
  /-- Every character token has a code in 0..127 (40_datapath_alu R78). -/
  output_wf : ∀ t ∈ s.output, t.wf = true
  /-- IR, ARGS and UPC fit together (10_state R20, R21). -/
  current_fits : s.currentFits
  /-- A fault holds the PC, TC and IC of the frozen state (60_exceptions R131). -/
  fault_context : ∀ r, s.status = .stopped (.fault r) → r.context = s.context

end Sys2Proof.Machine
end

