-- ==== Sys2Proof/Certificates/Slice0/Obligations.lean ====
section
/-!
DEFINITION. The statements for the provers. Each docstring names the rule of spec/ it formalises. The words a
statement needs beside the model's own stand first, written from the spec.
-/

namespace Sys2Proof.Claims

open Sys2Proof.Machine

/-- 0..S, what the address latch accepts (40_datapath_alu R64). -/
abbrev InLatchRange (s : State) (a : Int) : Prop := 0 ≤ a ∧ a ≤ (s.size : Int)

/-- A cell an access reaches: 0..S-1, and S too where UNBACKED_CELL_FAULTS is false (20_memory R36). -/
abbrev Usable (s : State) (a : Int) : Prop :=
  0 ≤ a ∧ (a < (s.size : Int) ∨ (a = (s.size : Int) ∧ s.config.unbackedCellFaults = false))

/-- Index S where an access at S faults (20_memory R36). -/
abbrev Unbacked (s : State) (a : Int) : Prop := a = (s.size : Int) ∧ s.config.unbackedCellFaults = true

/-- The state after a successful fetch of i: IR, ARGS and UPC latched (42_control_unit R106). -/
def fetched (s : State) (i : Instr) : State := { s with ir := some i.opcode, args := i.args, upc := 0 }

/-- The ticks counted when the run stops in tick k: k, or k - 1 where TICK_AT_INVOCATION is false
(42_control_unit R107, 93_implementation_defined section 1). -/
def stopTicks (s : State) (k : Nat) : Nat := if s.config.tickAtInvocation then k else k - 1

/-- The frozen state of a fault: STATUS is Fault(cause, (PC, TC, IC)) (60_exceptions R131). -/
def frozen (c : FaultCause) (t : State) : State :=
  { t with status := .stopped (.fault { cause := c, context := { pc := t.pc, tc := t.tc, ic := t.ic } }) }

/-- The instruction in the slot PC names, if there is one. -/
def instrAtPc (s : State) : Option Instr :=
  if 0 ≤ s.pc then
    match s.program[s.pc.toNat]? with
    | some r =>
      match decode r with
      | .ok i => some i
      | .error _ => none
    | none => none
  else none

/-- The instruction completes: its sequence ran to its end (HLT completes by halting). -/
abbrev Completed (t : State) : Prop := t.status = .running ∨ t.status = .stopped .halted

/-- Ticks per instruction when the instruction completes (42_control_unit R111). -/
def ticksOf : Opcode → Nat
  | .hlt => 1
  | .mov => 3
  | .cmp => 3
  | .cmpIndirectInc => 6
  | .remainder => 3
  | .add => 4
  | .inp => 2
  | .out => 3
  | .outChar => 3
  | .outIndirect => 4
  | .jmp => 1
  | .branchEq => 1

/-- A run of whole instructions, each completing (42_control_unit R110). -/
inductive CompletingRun : List Instr → State → State → Prop where
  | done (s : State) : CompletingRun [] s s
  | step {i : Instr} {is : List Instr} {s t u : State} :
      s.status = .running → instrAtPc s = some i → step s = .next t → Completed t →
      CompletingRun is t u → CompletingRun (i :: is) s u

/-- The remainder a mod b: floored (00_scope R9) or truncated (93_implementation_defined section 1). -/
def remainderOf (s : State) (a b : Int) : Int :=
  if s.config.remConvention = .floored then Int.fmod a b else Int.tmod a b

/-- What each instruction leaves in ACC when it completes (43_control R118). -/
def accAfter (s : State) : Instr → Int
  | .hlt => s.acc
  | .mov a0 _ => s.cell a0
  | .cmp a0 a1 => s.cell a1 - s.cell a0
  | .cmpIndirectInc a0 a1 => s.cell a1 - s.cell (s.cell a0)
  | .remainder a0 a1 => remainderOf s (s.cell a0) (s.cell a1)
  | .add a0 a1 => s.cell a0 + s.cell a1
  | .inp _ => (s.queue.headD 0 : Nat)
  | .out a0 => s.cell a0
  | .outChar a0 => s.cell a0
  | .outIndirect a0 => s.cell (s.cell a0)
  | .jmp _ => s.acc
  | .branchEq _ => s.acc

/-- The states agree on all a later instruction can observe: everything but BR, ALU, DA and the latched
instruction (42_control_unit R109). -/
structure SameObservable (s t : State) : Prop where
  acc : s.acc = t.acc
  mem : s.mem = t.mem
  pc : s.pc = t.pc
  tc : s.tc = t.tc
  ic : s.ic = t.ic
  queue : s.queue = t.queue
  output : s.output = t.output
  status : s.status = t.status
  program : s.program = t.program
  size : s.size = t.size
  config : s.config = t.config

/-- Micro-operations that write PC or halt (42_control_unit R103). -/
def endsSequence (op : MicroOp) : Bool :=
  op = .nextPc || op = .jump || op = .branchIfZero || op = .halt

/-- The value of a list of decimal digits. -/
def digitsValue (ds : List Char) : Nat := ds.foldl (fun n c => 10 * n + (c.toNat - 48)) 0

end Sys2Proof.Claims

open Sys2Proof Sys2Proof.Machine Sys2Proof.Claims

/-! ### Encoding -/

/-- Decode and encode agree in both directions: a record decodes to i exactly when it is the encoding of i with the
record's own source address; and the numbered form of i decodes to i (30_encoding R50, R53, R55, R57). -/
def Obligations.DecodeAndEncodeAgree : Prop :=
  (∀ (r : Record) (i : Instr), decode r = .ok i ↔ r = encodeAt r.sourceAddress i) ∧
  (∀ i : Instr, decodeNumbered (encodeNumbered i) = .ok i)

/-- The decoder accepts exactly the well-formed records (30_encoding R54, R56; 42_control_unit R112). -/
def Obligations.DecodeSucceedsExactlyOnWellFormedRecords : Prop :=
  ∀ r : Record, (∃ i, decode r = .ok i) ↔ (r.op.toNat < 12 ∧
    r.args.length = if r.op.toNat = 0 then 0 else if r.op.toNat ≤ 5 then 2 else 1)

/-- The twelve numbered forms of 30_encoding R55, and a reserved tag (R56). -/
def Obligations.NumberedFormsDecode : Prop :=
  decodeNumbered [0] = .ok .hlt ∧
  decodeNumbered [1, 0, 1] = .ok (.mov 0 1) ∧
  decodeNumbered [2, 0, 1] = .ok (.cmp 0 1) ∧
  decodeNumbered [3, 0, 1] = .ok (.cmpIndirectInc 0 1) ∧
  decodeNumbered [4, 0, 1] = .ok (.remainder 0 1) ∧
  decodeNumbered [5, 3, 2] = .ok (.add 3 2) ∧
  decodeNumbered [6, 5] = .ok (.inp 5) ∧
  decodeNumbered [7, 3] = .ok (.out 3) ∧
  decodeNumbered [8, 0] = .ok (.outChar 0) ∧
  decodeNumbered [9, 2] = .ok (.outIndirect 2) ∧
  decodeNumbered [10, -1] = .ok (.jmp (-1)) ∧
  decodeNumbered [11, 5] = .ok (.branchEq 5) ∧
  decodeNumbered [12] = .error (.reservedTag 12)

/-! ### The step -/

/-- A step runs the decoded instruction: IC is counted, and the rest is exec (42_control_unit R104, R106, R108). -/
def Obligations.StepRunsTheDecodedInstruction : Prop :=
  ∀ (s : State) (r : Record) (i : Instr), s.status = .running → 0 ≤ s.pc →
    s.program[s.pc.toNat]? = some r → decode r = .ok i →
    step s = exec i { s with ic := s.ic + 1 }

/-- Fetch outside the program (42_control_unit R105): the fault records the PC, TC is unchanged, IC is counted. -/
def Obligations.FetchOutsideTheProgramFaults : Prop :=
  ∀ s : State, s.status = .running → (s.pc < 0 ∨ (s.program.length : Int) ≤ s.pc) →
    step s = .next (frozen (.programCounterOutOfRange s.pc) { s with ic := s.ic + 1 })

/-- A state whose STATUS is not Running has no next step, and only such a state answers a fault
(60_exceptions R152). -/
def Obligations.StoppedStatesHaveNoNextStep : Prop :=
  ∀ s : State,
    (∀ o, s.status = .stopped o → step s = .fault (.runEnded o)) ∧
    (s.status = .running → ∀ f, step s ≠ .fault f)

/-- Progress: a running state that meets the invariant has a next step, whatever its data (42_control_unit R112:
no illegal-instruction fault exists at run time). -/
def Obligations.RunningStatesAlwaysStep : Prop :=
  ∀ s : State, s.Inv → s.status = .running → ∃ t, step s = .next t

/-- No instruction is ever refused, in any state (in a running state: 42_control_unit R106, R112, 60_exceptions R131).
In a state that does not run, where R104 and R152 give no step, this rests on the model's choice to test STATUS in
step alone (log 15). -/
def Obligations.ExecAlwaysAnswersANextState : Prop :=
  ∀ (i : Instr) (s : State), ∃ t, exec i s = .next t

/-- Small step and big step give the same states (42_control_unit R113): the instruction is as many small steps as
its sequence is long, the stop states included. For states that do not run, where R113 gives no small step, the two
forms agree by the model's choice to test STATUS in step alone (log 15). -/
def Obligations.SmallStepsGiveTheInstruction : Prop :=
  ∀ (i : Instr) (s : State), exec i s = (microSteps (ticksOf i.opcode) (fetched s i)).outcome

/-! ### The instructions: result, stops and partial effects -/

/-- HLT (43_control R114). Its middle clause holds in every state; in one that does not run, where R104 gives no step,
it rests on the model's choice to test STATUS in step alone (log 15). -/
def Obligations.HltHalts : Prop :=
  ∀ s : State,
    encode .hlt = { op := 0, args := [] } ∧
    microcode .hlt = [.halt] ∧
    exec .hlt s = .next { fetched s .hlt with upc := 1, tc := s.tc + stopTicks s 1, status := .stopped .halted } ∧
    (s.status = .running → instrAtPc s = some .hlt →
      ∃ t, step s = .next t ∧ t.status = .stopped .halted ∧ t.pc = s.pc ∧ t.ic = s.ic + 1)

/-- JMP a0 (43_control R115); a target outside the program faults at the next fetch. -/
def Obligations.JmpSetsThePc : Prop :=
  ∀ (a0 : Int) (s : State), s.status = .running →
    encode (.jmp a0) = { op := 10, args := [a0] } ∧
    microcode .jmp = [.jump] ∧
    ∃ t, exec (.jmp a0) s = .next t ∧
      t = { fetched s (.jmp a0) with upc := 1, tc := s.tc + 1, pc := a0 } ∧
      ((a0 < 0 ∨ (s.program.length : Int) ≤ a0) →
        step t = .next (frozen (.programCounterOutOfRange a0) { t with ic := t.ic + 1 }))

/-- BRANCH_EQ a0 (43_control R116): taken exactly when ACC is 0, for every target; the range is checked at the next
fetch, whether the branch is taken or not. -/
def Obligations.BranchEqTestsTheAccumulator : Prop :=
  ∀ (a0 : Int) (s : State), s.status = .running →
    encode (.branchEq a0) = { op := 11, args := [a0] } ∧
    microcode .branchEq = [.branchIfZero] ∧
    (s.acc = 0 → exec (.branchEq a0) s =
      .next { fetched s (.branchEq a0) with upc := 1, tc := s.tc + 1, pc := a0 }) ∧
    (s.acc ≠ 0 → exec (.branchEq a0) s =
      .next { fetched s (.branchEq a0) with upc := 1, tc := s.tc + 1, pc := s.pc + 1 }) ∧
    (∀ t, exec (.branchEq a0) s = .next t → (t.pc < 0 ∨ (s.program.length : Int) ≤ t.pc) →
      step t = .next (frozen (.programCounterOutOfRange t.pc) { t with ic := t.ic + 1 }))

/-- MOV a0, a1 (44_move R119). -/
def Obligations.MovCopiesOneCell : Prop :=
  ∀ (a0 a1 : Int) (s : State), s.status = .running →
    encode (.mov a0 a1) = { op := 1, args := [a0, a1] } ∧
    microcode .mov = [.readArg0, .writeArg1, .nextPc] ∧
    (Usable s a0 → Usable s a1 → exec (.mov a0 a1) s =
      .next { fetched s (.mov a0 a1) with
        upc := 3, tc := s.tc + 3, acc := s.cell a0, da := a1, mem := s.storeCell a1 (s.cell a0),
        pc := s.pc + 1 }) ∧
    (¬ InLatchRange s a0 → exec (.mov a0 a1) s =
      .next (frozen (.dataAddress a0) { fetched s (.mov a0 a1) with tc := s.tc + stopTicks s 1 })) ∧
    (Unbacked s a0 → exec (.mov a0 a1) s =
      .next (frozen (.unbackedCell a0) { fetched s (.mov a0 a1) with tc := s.tc + stopTicks s 1, da := a0 })) ∧
    (Usable s a0 → ¬ InLatchRange s a1 → exec (.mov a0 a1) s =
      .next (frozen (.dataAddress a1) { fetched s (.mov a0 a1) with
        upc := 1, tc := s.tc + stopTicks s 2, acc := s.cell a0, da := a0 })) ∧
    (Usable s a0 → Unbacked s a1 → exec (.mov a0 a1) s =
      .next (frozen (.unbackedCell a1) { fetched s (.mov a0 a1) with
        upc := 1, tc := s.tc + stopTicks s 2, acc := s.cell a0, da := a1 }))

/-- CMP a0, a1 (45_alu_ops R120). -/
def Obligations.CmpLeavesTheDifference : Prop :=
  ∀ (a0 a1 : Int) (s : State), s.status = .running →
    encode (.cmp a0 a1) = { op := 2, args := [a0, a1] } ∧
    microcode .cmp = [.readArg0, .aluCmp, .nextPc] ∧
    (Usable s a0 → Usable s a1 → exec (.cmp a0 a1) s =
      .next { fetched s (.cmp a0 a1) with
        upc := 3, tc := s.tc + 3, acc := s.cell a1 - s.cell a0, alu := s.cell a1 - s.cell a0, da := a1,
        pc := s.pc + 1 }) ∧
    (¬ InLatchRange s a0 → exec (.cmp a0 a1) s =
      .next (frozen (.dataAddress a0) { fetched s (.cmp a0 a1) with tc := s.tc + stopTicks s 1 })) ∧
    (Unbacked s a0 → exec (.cmp a0 a1) s =
      .next (frozen (.unbackedCell a0) { fetched s (.cmp a0 a1) with tc := s.tc + stopTicks s 1, da := a0 })) ∧
    (Usable s a0 → ¬ InLatchRange s a1 → exec (.cmp a0 a1) s =
      .next (frozen (.dataAddress a1) { fetched s (.cmp a0 a1) with
        upc := 1, tc := s.tc + stopTicks s 2, acc := s.cell a0, da := a0 })) ∧
    (Usable s a0 → Unbacked s a1 → exec (.cmp a0 a1) s =
      .next (frozen (.unbackedCell a1) { fetched s (.cmp a0 a1) with
        upc := 1, tc := s.tc + stopTicks s 2, acc := s.cell a0, da := a1 }))

/-- CMP_INDIRECT_INC a0, a1 (45_alu_ops R121), with p = M[a0]: every read comes before the write, and on a fault the
pointer has not been incremented. -/
def Obligations.CmpIndirectIncComparesAndAdvances : Prop :=
  ∀ (a0 a1 : Int) (s : State), s.status = .running →
    encode (.cmpIndirectInc a0 a1) = { op := 3, args := [a0, a1] } ∧
    microcode .cmpIndirectInc = [.readArg0, .readIndirect, .aluCmp, .incAtArg0, .writeBrArg0, .nextPc] ∧
    (Usable s a0 → Usable s (s.cell a0) → Usable s a1 → exec (.cmpIndirectInc a0 a1) s =
      .next { fetched s (.cmpIndirectInc a0 a1) with
        upc := 6, tc := s.tc + 6, acc := s.cell a1 - s.cell (s.cell a0), alu := s.cell a0 + 1,
        br := s.cell a0 + 1, da := a0, mem := s.storeCell a0 (s.cell a0 + 1), pc := s.pc + 1 }) ∧
    (¬ InLatchRange s a0 → exec (.cmpIndirectInc a0 a1) s =
      .next (frozen (.dataAddress a0) { fetched s (.cmpIndirectInc a0 a1) with tc := s.tc + stopTicks s 1 })) ∧
    (Unbacked s a0 → exec (.cmpIndirectInc a0 a1) s =
      .next (frozen (.unbackedCell a0) { fetched s (.cmpIndirectInc a0 a1) with
        tc := s.tc + stopTicks s 1, da := a0 })) ∧
    (Usable s a0 → ¬ InLatchRange s (s.cell a0) → exec (.cmpIndirectInc a0 a1) s =
      .next (frozen (.dataAddress (s.cell a0)) { fetched s (.cmpIndirectInc a0 a1) with
        upc := 1, tc := s.tc + stopTicks s 2, acc := s.cell a0, da := a0 })) ∧
    (Usable s a0 → Unbacked s (s.cell a0) → exec (.cmpIndirectInc a0 a1) s =
      .next (frozen (.unbackedCell (s.cell a0)) { fetched s (.cmpIndirectInc a0 a1) with
        upc := 1, tc := s.tc + stopTicks s 2, acc := s.cell a0, da := s.cell a0 })) ∧
    (Usable s a0 → Usable s (s.cell a0) → ¬ InLatchRange s a1 → exec (.cmpIndirectInc a0 a1) s =
      .next (frozen (.dataAddress a1) { fetched s (.cmpIndirectInc a0 a1) with
        upc := 2, tc := s.tc + stopTicks s 3, acc := s.cell (s.cell a0), da := s.cell a0 })) ∧
    (Usable s a0 → Usable s (s.cell a0) → Unbacked s a1 → exec (.cmpIndirectInc a0 a1) s =
      .next (frozen (.unbackedCell a1) { fetched s (.cmpIndirectInc a0 a1) with
        upc := 2, tc := s.tc + stopTicks s 3, acc := s.cell (s.cell a0), da := a1 }))

/-- REMAINDER a0, a1 (45_alu_ops R122): dividend M[a0] modulo divisor M[a1]; a zero divisor faults with the dividend,
and an address fault comes before it (60_exceptions R140). -/
def Obligations.RemainderLeavesDividendModDivisor : Prop :=
  ∀ (a0 a1 : Int) (s : State), s.status = .running →
    encode (.remainder a0 a1) = { op := 4, args := [a0, a1] } ∧
    microcode .remainder = [.readArg0, .aluRem, .nextPc] ∧
    (Usable s a0 → Usable s a1 → s.cell a1 ≠ 0 → exec (.remainder a0 a1) s =
      .next { fetched s (.remainder a0 a1) with
        upc := 3, tc := s.tc + 3, acc := remainderOf s (s.cell a0) (s.cell a1),
        alu := remainderOf s (s.cell a0) (s.cell a1), da := a1, pc := s.pc + 1 }) ∧
    (Usable s a0 → Usable s a1 → s.cell a1 = 0 → exec (.remainder a0 a1) s =
      .next (frozen (.divideByZero (s.cell a0)) { fetched s (.remainder a0 a1) with
        upc := 1, tc := s.tc + stopTicks s 2, acc := s.cell a0, da := a1 })) ∧
    (¬ InLatchRange s a0 → exec (.remainder a0 a1) s =
      .next (frozen (.dataAddress a0) { fetched s (.remainder a0 a1) with tc := s.tc + stopTicks s 1 })) ∧
    (Unbacked s a0 → exec (.remainder a0 a1) s =
      .next (frozen (.unbackedCell a0) { fetched s (.remainder a0 a1) with
        tc := s.tc + stopTicks s 1, da := a0 })) ∧
    (Usable s a0 → ¬ InLatchRange s a1 → exec (.remainder a0 a1) s =
      .next (frozen (.dataAddress a1) { fetched s (.remainder a0 a1) with
        upc := 1, tc := s.tc + stopTicks s 2, acc := s.cell a0, da := a0 })) ∧
    (Usable s a0 → Unbacked s a1 → exec (.remainder a0 a1) s =
      .next (frozen (.unbackedCell a1) { fetched s (.remainder a0 a1) with
        upc := 1, tc := s.tc + stopTicks s 2, acc := s.cell a0, da := a1 }))

/-- ADD a0, a1 (45_alu_ops R123). -/
def Obligations.AddAccumulatesIntoACell : Prop :=
  ∀ (a0 a1 : Int) (s : State), s.status = .running →
    encode (.add a0 a1) = { op := 5, args := [a0, a1] } ∧
    microcode .add = [.readArg0, .aluAdd, .writeArg1, .nextPc] ∧
    (Usable s a0 → Usable s a1 → exec (.add a0 a1) s =
      .next { fetched s (.add a0 a1) with
        upc := 4, tc := s.tc + 4, acc := s.cell a1 + s.cell a0, alu := s.cell a1 + s.cell a0, da := a1,
        mem := s.storeCell a1 (s.cell a1 + s.cell a0), pc := s.pc + 1 }) ∧
    (¬ InLatchRange s a0 → exec (.add a0 a1) s =
      .next (frozen (.dataAddress a0) { fetched s (.add a0 a1) with tc := s.tc + stopTicks s 1 })) ∧
    (Unbacked s a0 → exec (.add a0 a1) s =
      .next (frozen (.unbackedCell a0) { fetched s (.add a0 a1) with tc := s.tc + stopTicks s 1, da := a0 })) ∧
    (Usable s a0 → ¬ InLatchRange s a1 → exec (.add a0 a1) s =
      .next (frozen (.dataAddress a1) { fetched s (.add a0 a1) with
        upc := 1, tc := s.tc + stopTicks s 2, acc := s.cell a0, da := a0 })) ∧
    (Usable s a0 → Unbacked s a1 → exec (.add a0 a1) s =
      .next (frozen (.unbackedCell a1) { fetched s (.add a0 a1) with
        upc := 1, tc := s.tc + stopTicks s 2, acc := s.cell a0, da := a1 }))

/-- IN a0 (46_io R125): the empty queue is tested first; the character is consumed before its code and the address
are checked. -/
def Obligations.InReadsOneCharacter : Prop :=
  ∀ (a0 : Int) (s : State), s.status = .running →
    encode (.inp a0) = { op := 6, args := [a0] } ∧
    microcode .inp = [.writeFromInput, .nextPc] ∧
    (s.queue = [] → exec (.inp a0) s =
      .next { fetched s (.inp a0) with tc := s.tc + stopTicks s 1, status := .stopped .inputExhausted }) ∧
    (∀ (c : Nat) (rest : List Nat), s.queue = c :: rest →
      (c ≤ 127 → Usable s a0 → exec (.inp a0) s =
        .next { fetched s (.inp a0) with
          upc := 2, tc := s.tc + 2, queue := rest, acc := (c : Int), da := a0, mem := s.storeCell a0 c,
          pc := s.pc + 1 }) ∧
      (127 < c → exec (.inp a0) s =
        .next (frozen (.inputCode c) { fetched s (.inp a0) with tc := s.tc + stopTicks s 1, queue := rest })) ∧
      (c ≤ 127 → ¬ InLatchRange s a0 → exec (.inp a0) s =
        .next (frozen (.dataAddress a0) { fetched s (.inp a0) with
          tc := s.tc + stopTicks s 1, queue := rest, acc := (c : Int) })) ∧
      (c ≤ 127 → Unbacked s a0 → exec (.inp a0) s =
        .next (frozen (.unbackedCell a0) { fetched s (.inp a0) with
          tc := s.tc + stopTicks s 1, queue := rest, acc := (c : Int), da := a0 })))

/-- OUT a0 (46_io R126). -/
def Obligations.OutAppendsANumber : Prop :=
  ∀ (a0 : Int) (s : State), s.status = .running →
    encode (.out a0) = { op := 7, args := [a0] } ∧
    microcode .out = [.readArg0, .outNum, .nextPc] ∧
    (Usable s a0 → exec (.out a0) s =
      .next { fetched s (.out a0) with
        upc := 3, tc := s.tc + 3, acc := s.cell a0, da := a0, output := s.output ++ [.num (s.cell a0)],
        pc := s.pc + 1 }) ∧
    (¬ InLatchRange s a0 → exec (.out a0) s =
      .next (frozen (.dataAddress a0) { fetched s (.out a0) with tc := s.tc + stopTicks s 1 })) ∧
    (Unbacked s a0 → exec (.out a0) s =
      .next (frozen (.unbackedCell a0) { fetched s (.out a0) with tc := s.tc + stopTicks s 1, da := a0 }))

/-- OUT_CHAR a0 (46_io R127). -/
def Obligations.OutCharAppendsACharacter : Prop :=
  ∀ (a0 : Int) (s : State), s.status = .running →
    encode (.outChar a0) = { op := 8, args := [a0] } ∧
    microcode .outChar = [.readArg0, .outChar, .nextPc] ∧
    (Usable s a0 → 0 ≤ s.cell a0 → s.cell a0 ≤ 127 → exec (.outChar a0) s =
      .next { fetched s (.outChar a0) with
        upc := 3, tc := s.tc + 3, acc := s.cell a0, da := a0, output := s.output ++ [.char (s.cell a0)],
        pc := s.pc + 1 }) ∧
    (Usable s a0 → ¬ (0 ≤ s.cell a0 ∧ s.cell a0 ≤ 127) → exec (.outChar a0) s =
      .next (frozen (.outputCodeOutOfRange (s.cell a0)) { fetched s (.outChar a0) with
        upc := 1, tc := s.tc + stopTicks s 2, acc := s.cell a0, da := a0 })) ∧
    (¬ InLatchRange s a0 → exec (.outChar a0) s =
      .next (frozen (.dataAddress a0) { fetched s (.outChar a0) with tc := s.tc + stopTicks s 1 })) ∧
    (Unbacked s a0 → exec (.outChar a0) s =
      .next (frozen (.unbackedCell a0) { fetched s (.outChar a0) with tc := s.tc + stopTicks s 1, da := a0 }))

/-- OUT_INDIRECT a0 (46_io R128), with p = M[a0]: the pointer is not advanced. -/
def Obligations.OutIndirectAppendsThePointee : Prop :=
  ∀ (a0 : Int) (s : State), s.status = .running →
    encode (.outIndirect a0) = { op := 9, args := [a0] } ∧
    microcode .outIndirect = [.readArg0, .readIndirect, .outChar, .nextPc] ∧
    (Usable s a0 → Usable s (s.cell a0) → 0 ≤ s.cell (s.cell a0) → s.cell (s.cell a0) ≤ 127 →
      exec (.outIndirect a0) s =
      .next { fetched s (.outIndirect a0) with
        upc := 4, tc := s.tc + 4, acc := s.cell (s.cell a0), da := s.cell a0,
        output := s.output ++ [.char (s.cell (s.cell a0))], pc := s.pc + 1 }) ∧
    (Usable s a0 → Usable s (s.cell a0) → ¬ (0 ≤ s.cell (s.cell a0) ∧ s.cell (s.cell a0) ≤ 127) →
      exec (.outIndirect a0) s =
      .next (frozen (.outputCodeOutOfRange (s.cell (s.cell a0))) { fetched s (.outIndirect a0) with
        upc := 2, tc := s.tc + stopTicks s 3, acc := s.cell (s.cell a0), da := s.cell a0 })) ∧
    (¬ InLatchRange s a0 → exec (.outIndirect a0) s =
      .next (frozen (.dataAddress a0) { fetched s (.outIndirect a0) with tc := s.tc + stopTicks s 1 })) ∧
    (Unbacked s a0 → exec (.outIndirect a0) s =
      .next (frozen (.unbackedCell a0) { fetched s (.outIndirect a0) with
        tc := s.tc + stopTicks s 1, da := a0 })) ∧
    (Usable s a0 → ¬ InLatchRange s (s.cell a0) → exec (.outIndirect a0) s =
      .next (frozen (.dataAddress (s.cell a0)) { fetched s (.outIndirect a0) with
        upc := 1, tc := s.tc + stopTicks s 2, acc := s.cell a0, da := a0 })) ∧
    (Usable s a0 → Unbacked s (s.cell a0) → exec (.outIndirect a0) s =
      .next (frozen (.unbackedCell (s.cell a0)) { fetched s (.outIndirect a0) with
        upc := 1, tc := s.tc + stopTicks s 2, acc := s.cell a0, da := s.cell a0 }))

/-! ### Frames: what an instruction leaves unchanged, when it completes and when it stops -/

/-- HLT, JMP, BRANCH_EQ: no datapath state, no cell, no stream changes (41_microops R98 to R100). -/
def Obligations.ControlInstructionsFrame : Prop :=
  ∀ (i : Instr) (s t : State), i.opcode ∈ [Opcode.hlt, .jmp, .branchEq] → s.status = .running → exec i s = .next t →
    t.acc = s.acc ∧ t.br = s.br ∧ t.alu = s.alu ∧ t.da = s.da ∧ (∀ n : Nat, t.mem.read n = s.mem.read n) ∧
    t.ic = s.ic ∧ t.queue = s.queue ∧ t.output = s.output ∧ t.program = s.program ∧ t.size = s.size ∧
    t.config = s.config ∧ (i.opcode = .hlt → t.pc = s.pc) ∧ (i.opcode ≠ .hlt → t.status = s.status)

/-- CMP, REMAINDER: destinations ACC, ALU and DA; no cell changes (45_alu_ops R120, R122). -/
def Obligations.CompareAndRemainderFrame : Prop :=
  ∀ (i : Instr) (s t : State), i.opcode ∈ [Opcode.cmp, .remainder] → s.status = .running → exec i s = .next t →
    t.br = s.br ∧ (∀ n : Nat, t.mem.read n = s.mem.read n) ∧ t.ic = s.ic ∧ t.queue = s.queue ∧
    t.output = s.output ∧ t.program = s.program ∧ t.size = s.size ∧ t.config = s.config ∧
    (t.status = s.status ∨ (t.pc = s.pc ∧ t.alu = s.alu ∧ ∃ r, t.status = .stopped (.fault r)))

/-- OUT, OUT_CHAR, OUT_INDIRECT: destinations ACC and DA, and O grows; no cell changes (46_io R126 to R128). -/
def Obligations.OutputInstructionsFrame : Prop :=
  ∀ (i : Instr) (s t : State), i.opcode ∈ [Opcode.out, .outChar, .outIndirect] → s.status = .running → exec i s = .next t →
    t.br = s.br ∧ t.alu = s.alu ∧ (∀ n : Nat, t.mem.read n = s.mem.read n) ∧ t.ic = s.ic ∧
    t.queue = s.queue ∧ t.program = s.program ∧ t.size = s.size ∧ t.config = s.config ∧
    (t.status = s.status ∨ (t.pc = s.pc ∧ t.output = s.output ∧ ∃ r, t.status = .stopped (.fault r)))

/-- MOV, ADD: destinations ACC and DA (and ALU for ADD); only cell a1 changes (44_move R119, 45_alu_ops R123). -/
def Obligations.MovAndAddFrame : Prop :=
  ∀ (a0 a1 : Int) (i : Instr) (s t : State), i = .mov a0 a1 ∨ i = .add a0 a1 → s.status = .running → exec i s = .next t →
    (i = .mov a0 a1 → t.alu = s.alu) ∧ t.br = s.br ∧
    (∀ n : Nat, (n : Int) ≠ a1 → t.mem.read n = s.mem.read n) ∧ t.ic = s.ic ∧
    t.queue = s.queue ∧ t.output = s.output ∧ t.program = s.program ∧ t.size = s.size ∧ t.config = s.config ∧
    (t.status = s.status ∨
      (t.pc = s.pc ∧ (∀ n : Nat, t.mem.read n = s.mem.read n) ∧ ∃ r, t.status = .stopped (.fault r)))

/-- CMP_INDIRECT_INC: destinations ACC, ALU, BR and DA; only cell a0 changes (45_alu_ops R121). -/
def Obligations.CmpIndirectIncFrame : Prop :=
  ∀ (a0 a1 : Int) (s t : State), s.status = .running →
    exec (.cmpIndirectInc a0 a1) s = .next t →
    (∀ n : Nat, (n : Int) ≠ a0 → t.mem.read n = s.mem.read n) ∧ t.ic = s.ic ∧ t.queue = s.queue ∧
    t.output = s.output ∧ t.program = s.program ∧ t.size = s.size ∧ t.config = s.config ∧
    (t.status = s.status ∨ (t.pc = s.pc ∧ t.br = s.br ∧ t.alu = s.alu ∧
      (∀ n : Nat, t.mem.read n = s.mem.read n) ∧ ∃ r, t.status = .stopped (.fault r)))

/-- IN: destinations ACC and DA, and Q loses its front; only cell a0 changes (46_io R125). -/
def Obligations.InFrame : Prop :=
  ∀ (a0 : Int) (s t : State), s.status = .running → exec (.inp a0) s = .next t →
    t.br = s.br ∧ t.alu = s.alu ∧ (∀ n : Nat, (n : Int) ≠ a0 → t.mem.read n = s.mem.read n) ∧
    t.ic = s.ic ∧ t.output = s.output ∧ t.queue = s.queue.tail ∧ t.program = s.program ∧ t.size = s.size ∧
    t.config = s.config ∧
    (t.status = s.status ∨
      (t.pc = s.pc ∧ (∀ n : Nat, t.mem.read n = s.mem.read n) ∧
        (t.status = .stopped .inputExhausted ∨ ∃ r, t.status = .stopped (.fault r))))

/-! ### The datapath -/

/-- latch_data_address(sel) (40_datapath_alu R64), every selector: 0..S inclusive is accepted, DA alone is written,
any other address faults and changes nothing. -/
def Obligations.AddressLatchAcceptsZeroToSizeInclusive : Prop :=
  ∀ (sel : AddressSel) (s : State) (addr : Int),
    (match sel with
      | .arg0 => s.args[0]? = some addr
      | .arg1 => s.args[1]? = some addr
      | .acc => s.acc = addr) →
    (0 ≤ addr ∧ addr ≤ (s.size : Int) → latchDataAddress sel s = .go { s with da := addr }) ∧
    (addr < 0 ∨ (s.size : Int) < addr → latchDataAddress sel s = .raised (frozen (.dataAddress addr) s))

/-- MemRead and MemWrite (20_memory R36): on backed cells a read gives the value of the latest write and no other
cell changes; at S, where cell S is not backed, both raise and change nothing. -/
def Obligations.MemoryAccessActsOnBackedCells : Prop :=
  ∀ (s : State) (a v : Int), s.mem.wf = true →
    (Usable s a → memRead s a = .ok (s.cell a) ∧
      ∃ t, memWrite s a v = .go t ∧ memRead t a = .ok v ∧
        (∀ b : Int, Usable s b → b ≠ a → memRead t b = memRead s b) ∧ t = { s with mem := t.mem }) ∧
    (Unbacked s a → memRead s a = .error (.unbackedCell a) ∧
      memWrite s a v = .raised (frozen (.unbackedCell a) s))

/-- Two memories in canonical form that read alike are the same data. -/
def Obligations.CanonicalMemoriesWithEqualReadsAreEqual : Prop :=
  ∀ m n : Memory, m.wf = true → n.wf = true → (∀ a : Nat, m.read a = n.read a) → m = n

/-- latch_accumulator(INPUT) (40_datapath_alu R67). -/
def Obligations.InputLatchPopsThenChecks : Prop :=
  ∀ s : State,
    (s.queue = [] → latchAccumulator .input s = .raised { s with status := .stopped .inputExhausted }) ∧
    (∀ (c : Nat) (rest : List Nat), s.queue = c :: rest →
      (c ≤ 127 → latchAccumulator .input s = .go { s with queue := rest, acc := (c : Int) }) ∧
      (127 < c → latchAccumulator .input s = .raised (frozen (.inputCode c) { s with queue := rest })))

/-- f(CMP), f(ADD), f(INCREMENT) are exact (40_datapath_alu R72, R74, R75), under either convention. -/
def Obligations.CompareAddAndIncrementAreExact : Prop :=
  ∀ (conv : RemConvention) (l r : Int),
    aluResult conv .cmp l r = .ok (l - r) ∧ aluResult conv .add l r = .ok (l + r) ∧
    aluResult conv .increment l r = .ok (l + 1)

/-- f(REMAINDER, l, r) (40_datapath_alu R73): right mod left; a zero left operand faults with the right one and writes
nothing; the floored result has the sign of l and is smaller in magnitude, the truncated one
(93_implementation_defined section 1) the sign of r; the two agree on operands that are not negative. -/
def Obligations.RemainderIsRightModLeft : Prop :=
  (∀ (conv : RemConvention) (r : Int), aluResult conv .remainder 0 r = .error (.divideByZero r)) ∧
  (∀ (lsel : LeftSel) (rsel : RightSel) (s : State), leftOperand lsel s = .ok 0 →
    aluApply .remainder lsel rsel s = .raised (frozen (.divideByZero (rightOperand rsel s)) s)) ∧
  (∀ l r : Int, l ≠ 0 → ∃ q m : Int, aluResult .floored .remainder l r = .ok m ∧ r = q * l + m ∧
    (0 < l → 0 ≤ m ∧ m < l) ∧ (l < 0 → l < m ∧ m ≤ 0)) ∧
  (∀ l r : Int, l ≠ 0 → ∃ q m : Int, aluResult .truncated .remainder l r = .ok m ∧ r = q * l + m ∧
    m.natAbs < l.natAbs ∧ (0 ≤ r → 0 ≤ m) ∧ (r ≤ 0 → m ≤ 0)) ∧
  (∀ l r : Int, 0 ≤ l → 0 ≤ r → aluResult .floored .remainder l r = aluResult .truncated .remainder l r)

/-- The micro-operation WRITE_ARG0, which no opcode's sequence holds (41_microops R89). -/
def Obligations.WriteArg0StoresTheAccumulator : Prop :=
  (∀ (s : State) (a0 : Int), s.args[0]? = some a0 →
    (Usable s a0 → perform .writeArg0 s = .go { s with da := a0, mem := s.storeCell a0 s.acc }) ∧
    (¬ InLatchRange s a0 → perform .writeArg0 s = .raised (frozen (.dataAddress a0) s)) ∧
    (Unbacked s a0 → perform .writeArg0 s = .raised (frozen (.unbackedCell a0) { s with da := a0 }))) ∧
  (∀ o : Opcode, MicroOp.writeArg0 ∉ microcode o)

/-- Every combination of ALU operation and operand selects is defined (40_datapath_alu R69 to R71, R76): with BR on
the left nothing but a zero divisor can fail, and ALU alone is written. -/
def Obligations.AluAppliesToTheBackRegister : Prop :=
  ∀ (op : AluOp) (rsel : RightSel) (s : State),
    (op = .remainder ∧ s.br = 0 →
      aluApply op .backRegister rsel s =
        .raised (frozen (.divideByZero (match rsel with | .accumulator => s.acc | .zero => 0)) s)) ∧
    (¬ (op = .remainder ∧ s.br = 0) → ∃ v, aluApply op .backRegister rsel s = .go { s with alu := v } ∧
      (op = .cmp → v = s.br - (match rsel with | .accumulator => s.acc | .zero => 0)) ∧
      (op = .add → v = s.br + (match rsel with | .accumulator => s.acc | .zero => 0)) ∧
      (op = .remainder → v = remainderOf s (match rsel with | .accumulator => s.acc | .zero => 0) s.br) ∧
      (op = .increment → v = s.br + 1))

/-- Every microcode sequence ends with exactly one micro-operation that writes PC or halts (42_control_unit R103). -/
def Obligations.SequencesEndWithOnePcWriteOrHalt : Prop :=
  ∀ o : Opcode, ∃ (body : List MicroOp) (last : MicroOp),
    microcode o = body ++ [last] ∧ endsSequence last = true ∧ ∀ op ∈ body, endsSequence op = false

/-! ### Counters -/

/-- IC is incremented by 1 in every step, however it ends, and before the fetch: a fault of the step, the fetch fault
too, records the incremented IC (42_control_unit R108). -/
def Obligations.EveryStepCountsOneInstruction : Prop :=
  ∀ s t : State, step s = .next t →
    t.ic = s.ic + 1 ∧ (∀ r, t.status = .stopped (.fault r) → r.context.ic = s.ic + 1)

/-- Ticks per instruction when it completes (42_control_unit R111). -/
def Obligations.TicksPerCompletedInstruction : Prop :=
  ∀ (i : Instr) (s t : State), s.status = .running → s.config.tickAtInvocation = true →
    exec i s = .next t → Completed t → t.tc = s.tc + ticksOf i.opcode

/-- The tick counter (42_control_unit R110): it never decreases; over completing instructions it grows by the sum of
their sequence lengths; a stopping micro-operation adds the ticks invoked, a fetch fault none. -/
def Obligations.TickCounterIsTheSumOfSequenceLengths : Prop :=
  (∀ s t : State, step s = .next t → s.tc ≤ t.tc) ∧
  (∀ (is : List Instr) (s u : State), s.config.tickAtInvocation = true → CompletingRun is s u →
    u.tc = s.tc + (is.map fun i => (microcode i.opcode).length).sum) ∧
  (∀ (i : Instr) (s t : State), s.status = .running → s.config.tickAtInvocation = true →
    instrAtPc s = some i → step s = .next t → ¬ Completed t → t.tc = s.tc + t.upc + 1) ∧
  (∀ s t : State, s.status = .running → (s.pc < 0 ∨ (s.program.length : Int) ≤ s.pc) →
    step s = .next t → t.tc = s.tc)

/-- TICK_AT_INVOCATION = false: the micro-operation that stops the run adds no tick, so TC is 1 lower at every stop,
and nothing else differs but the tick count in a fault's context (93_implementation_defined section 1). -/
def Obligations.TickParameterChangesOnlyTheStoppingTick : Prop :=
  ∀ (i : Instr) (s t u : State), s.status = .running →
    exec i { s with config := { s.config with tickAtInvocation := true } } = .next t →
    exec i { s with config := { s.config with tickAtInvocation := false } } = .next u →
    (t.status = .running → u.tc = t.tc) ∧ (t.status ≠ .running → u.tc + 1 = t.tc) ∧
    (∀ r, t.status = .stopped (.fault r) →
      u.status = .stopped (.fault { r with context := { r.context with tc := u.tc } })) ∧
    ((∀ r, t.status ≠ .stopped (.fault r)) → u.status = t.status) ∧
    { u with tc := t.tc, status := t.status, config := t.config } = t

/-! ### Stops -/

/-- A fault records (PC, TC, IC) of the frozen state, and PC is the faulting instruction's own address
(60_exceptions R131). -/
def Obligations.FaultsRecordTheirContext : Prop :=
  ∀ (s t : State) (r : FaultRecord), step s = .next t → t.status = .stopped (.fault r) →
    r.context = { pc := t.pc, tc := t.tc, ic := t.ic } ∧ t.pc = s.pc ∧
    (∀ u, step t ≠ .next u)

/-- Fault kinds and their codes (60_exceptions R132). -/
def Obligations.FaultKindsAndCodes : Prop :=
  ∀ c : FaultCause, (c.kind, c.kind.code) =
    (match c with
      | .nonPositiveMemorySize _ => (FaultKind.configurationError, 1)
      | .initialDataTooLong _ => (.configurationError, 1)
      | .malformedProgram _ => (.configurationError, 1)
      | .dataAddress _ => (.outOfRangeAddress, 2)
      | .unbackedCell _ => (.outOfRangeAddress, 2)
      | .inputCode _ => (.outOfRangeAddress, 2)
      | .divideByZero _ => (.divideByZero, 3)
      | .programCounterOutOfRange _ => (.programCounterOutOfRange, 4)
      | .outputCodeOutOfRange _ => (.outputCodeOutOfRange, 5)
      | .runawayExecution _ => (.runawayExecution, 6))

/-- Which opcodes can stop the run, and how (60_exceptions R134, R135, R137, R138, R139, 41_microops R99). -/
def Obligations.EachStopComesFromItsOpcodes : Prop :=
  ∀ (i : Instr) (s t : State), s.status = .running → exec i s = .next t →
    (t.status = .stopped .halted ↔ i = .hlt) ∧
    (t.status = .stopped .inputExhausted → i.opcode = .inp ∧ s.queue = []) ∧
    (∀ r, t.status = .stopped (.fault r) →
      (r.cause.kind = .outOfRangeAddress ∨ r.cause.kind = .divideByZero ∨ r.cause.kind = .outputCodeOutOfRange) ∧
      (r.cause.kind = .outOfRangeAddress → i.opcode ∉ [Opcode.hlt, .jmp, .branchEq]) ∧
      (r.cause.kind = .divideByZero → i.opcode = .remainder) ∧
      (r.cause.kind = .outputCodeOutOfRange → i.opcode ∈ [Opcode.outChar, .outIndirect]) ∧
      (∀ c, r.cause = .inputCode c → i.opcode = .inp))

/-- UnbackedCell is raised at index S only, and never where UNBACKED_CELL_FAULTS is false (60_exceptions R134,
93_implementation_defined section 1). -/
def Obligations.UnbackedCellFaultsOnlyAtSize : Prop :=
  ∀ (i : Instr) (s t : State) (a : Int) (x : Context), s.status = .running → exec i s = .next t →
    t.status = .stopped (.fault { cause := .unbackedCell a, context := x }) →
    a = (s.size : Int) ∧ s.config.unbackedCellFaults = true ∧ t.da = a

/-! ### Whole-machine rules -/

/-- The value each instruction leaves in ACC when it completes (43_control R118). -/
def Obligations.AccumulatorAfterEachInstruction : Prop :=
  ∀ (i : Instr) (s t : State), s.status = .running → exec i s = .next t → Completed t → t.acc = accAfter s i

/-- Between its result and a BRANCH_EQ only HLT, JMP and BRANCH_EQ keep ACC: every other instruction that completes
gives the same state whatever ACC was (45_alu_ops R124, 70_reset_and_hazards R159). -/
def Obligations.OtherInstructionsForgetTheAccumulator : Prop :=
  ∀ (i : Instr) (s t : State) (x : Int), s.status = .running →
    i.opcode ∉ [Opcode.hlt, .jmp, .branchEq] → exec i s = .next t → t.status = .running →
    exec i { s with acc := x } = .next t

/-- BR, ALU, DA and the latched instruction are never observable: states that agree on the rest step to states that
agree on the rest, stops included (42_control_unit R109). -/
def Obligations.HiddenRegistersAreNeverObserved : Prop :=
  ∀ s s' t : State, SameObservable s s' → step s = .next t → ∃ t', step s' = .next t' ∧ SameObservable t t'

/-- No micro-operation and no step writes the program, the memory size or the parameters (10_state R30). -/
def Obligations.ProgramAndParametersAreImmutable : Prop :=
  (∀ (op : MicroOp) (s t : State), perform op s = .go t ∨ perform op s = .raised t →
    t.program = s.program ∧ t.size = s.size ∧ t.config = s.config) ∧
  (∀ s t : State, step s = .next t → t.program = s.program ∧ t.size = s.size ∧ t.config = s.config)

/-- I/O order (46_io R129): along every run the output only grows at its end and the input only shrinks at its
front; one character leaves per IN that executes, and one token enters per output instruction that completes. -/
def Obligations.StreamsMoveInProgramOrder : Prop :=
  (∀ (i : Instr) (s t : State), s.status = .running → exec i s = .next t →
    (i.opcode = .inp → t.queue = s.queue.tail) ∧ (i.opcode ≠ .inp → t.queue = s.queue) ∧
    (i.opcode ∉ [Opcode.out, .outChar, .outIndirect] ∨ t.status ≠ .running → t.output = s.output) ∧
    (i.opcode ∈ [Opcode.out, .outChar, .outIndirect] → t.status = .running →
      t.output = s.output ++ [if i.opcode = .out then .num t.acc else .char t.acc])) ∧
  (∀ s t : State, Reaches s t → s.output <+: t.output ∧ t.queue <:+ s.queue)

/-- The invariant at reset. The size 1 of State.reset is the model's choice (log 3). -/
def Obligations.ResetMeetsTheInvariant : Prop := State.reset.Inv

/-- Every state a launch gives meets the invariant. -/
def Obligations.LaunchEstablishesTheInvariant : Prop :=
  ∀ (l : Launch) (s : State), launch l = .ok s → s.Inv

/-- Every step keeps the invariant: DA in 0..S, the memory canonical and inside its bound, the program well formed,
character tokens in 0..127, IR, ARGS and UPC fitting, a fault's context that of the frozen state. -/
def Obligations.StepKeepsTheInvariant : Prop :=
  ∀ s t : State, s.Inv → step s = .next t → t.Inv

/-! ### Launch, run and result -/

/-- The launch checks and their order (70_reset_and_hazards R153). -/
def Obligations.LaunchChecksInOrder : Prop :=
  ∀ l : Launch,
    (l.size ≤ 0 → launch l = .error { cause := .nonPositiveMemorySize l.size, context := { pc := 0, tc := 0, ic := 0 } }) ∧
    (0 < l.size → l.size < (l.data.length : Int) →
      launch l = .error { cause := .initialDataTooLong l.data.length, context := { pc := 0, tc := 0, ic := 0 } }) ∧
    (0 < l.size → (l.data.length : Int) ≤ l.size → ∀ (k : Nat) (r : Record), l.program[k]? = some r → r.wf = false →
      (∀ (j : Nat) (q : Record), j < k → l.program[j]? = some q → q.wf = true) →
      launch l = .error { cause := .malformedProgram k, context := { pc := 0, tc := 0, ic := 0 } }) ∧
    (0 < l.size → (l.data.length : Int) ≤ l.size → (∀ r ∈ l.program, r.wf = true) → ∃ s, launch l = .ok s)

/-- The state after reset of a launch (70_reset_and_hazards R154): cell i holds D[i], or 0 past the end of D. -/
def Obligations.LaunchedStateIsTheResetState : Prop :=
  ∀ (l : Launch) (s : State), launch l = .ok s →
    s.acc = 0 ∧ s.br = 0 ∧ s.alu = 0 ∧ s.da = 0 ∧ (∀ n : Nat, s.mem.read n = l.data.getD n 0) ∧
    s.pc = 0 ∧ s.ir = none ∧ s.args = [] ∧ s.upc = 0 ∧ s.tc = 0 ∧ s.ic = 0 ∧ s.queue = l.input ∧
    s.output = [] ∧ s.status = .running ∧ s.program = l.program ∧ (s.size : Int) = l.size ∧ s.config = l.config

/-- The registers of State.reset hold the values the spec gives for reset (10_state R14 to R26); its launch
parameters are the model's choice and no part of the statement. -/
def Obligations.ResetRegisterValues : Prop :=
  State.reset.acc = 0 ∧ State.reset.br = 0 ∧ State.reset.alu = 0 ∧ State.reset.da = 0 ∧ State.reset.pc = 0 ∧
  State.reset.ir = none ∧ State.reset.args = [] ∧ State.reset.upc = 0 ∧ State.reset.tc = 0 ∧ State.reset.ic = 0 ∧
  State.reset.output = [] ∧ State.reset.status = .running

/-- The entry point (70_reset_and_hazards R155): the first step of a launched machine fetches P[0], and an empty
program faults there. -/
def Obligations.FirstStepFetchesSlotZero : Prop :=
  ∀ (l : Launch) (s : State), launch l = .ok s →
    (∀ (r : Record) (rest : List Record), l.program = r :: rest →
      ∃ i, decode r = .ok i ∧ step s = exec i { s with ic := 1 }) ∧
    (l.program = [] → step s = .next (frozen (.programCounterOutOfRange 0) { s with ic := 1 }))

/-- The run (60_exceptions R149): it always ends; at most L instructions execute; it ends in RunawayExecution(L)
only with exactly L of them executed, and with L ≤ 0 before any. -/
def Obligations.EveryRunEndsWithinTheCeiling : Prop :=
  ∀ (l : Launch) (s : State), launch l = .ok s →
    (finalState l s).status ≠ .running ∧
    ((finalState l s).ic : Int) ≤ max l.ceiling 0 ∧
    (∀ (c : Int) (x : Context), (finalState l s).status = .stopped (.fault { cause := .runawayExecution c, context := x }) →
      c = l.ceiling ∧ ((finalState l s).ic : Int) = max l.ceiling 0) ∧
    (l.ceiling ≤ 0 → finalState l s = frozen (.runawayExecution l.ceiling) s)

/-- The loop of the harness is the machine's own steps (60_exceptions R149): the final state is reached from the
launched state by steps, but for the STATUS a runaway stop sets. -/
def Obligations.FinalStateIsReachedBySteps : Prop :=
  ∀ (l : Launch) (s : State), launch l = .ok s →
    ∃ t, Reaches s t ∧ (finalState l s = t ∨
      (t.status = .running ∧ finalState l s = frozen (.runawayExecution l.ceiling) t))

/-- The result of a run (60_exceptions R150). -/
def Obligations.RunReportsItsResult : Prop :=
  ∀ l : Launch,
    (∀ r, launch l = .error r → run l = some (.fatal r)) ∧
    (∀ s, launch l = .ok s →
      ((finalState l s).status = .stopped .halted → run l = some (.completed
        ((finalState l s).output.map Token.render).flatten (finalState l s).ic (finalState l s).tc false)) ∧
      ((finalState l s).status = .stopped .inputExhausted → run l = some (.completed
        ((finalState l s).output.map Token.render).flatten (finalState l s).ic (finalState l s).tc true)) ∧
      (∀ r, (finalState l s).status = .stopped (.fault r) → run l = some (.fatal r)))

/-- Num(v) renders as the decimal string of v (40_datapath_alu R80): a '-' exactly for negative values, then the
digits of |v|, no leading zero, and 0 for zero. -/
def Obligations.NumbersRenderAsDecimalStrings : Prop :=
  ∀ v : Int, ∃ ds : List Char,
    Token.render (.num v) = (if v < 0 then ['-'] else []) ++ ds ∧
    digitsValue ds = v.natAbs ∧ (∀ c ∈ ds, 48 ≤ c.toNat ∧ c.toNat ≤ 57) ∧
    (v ≠ 0 → ds.head? ≠ some '0') ∧ (v = 0 → ds = ['0'])
end

