-- ==== Sys2Proof/Laws/State.lean ====
section
/-!
SUPPORT. One lemma per field per named update of State, true by rfl, so that no later proof unfolds an update.
-/

namespace Sys2Proof.Machine

@[simp] theorem State.stopWith_acc (s : State) (c : StopCause) : (s.stopWith c).acc = s.acc := rfl
@[simp] theorem State.stopWith_br (s : State) (c : StopCause) : (s.stopWith c).br = s.br := rfl
@[simp] theorem State.stopWith_alu (s : State) (c : StopCause) : (s.stopWith c).alu = s.alu := rfl
@[simp] theorem State.stopWith_da (s : State) (c : StopCause) : (s.stopWith c).da = s.da := rfl
@[simp] theorem State.stopWith_mem (s : State) (c : StopCause) : (s.stopWith c).mem = s.mem := rfl
@[simp] theorem State.stopWith_pc (s : State) (c : StopCause) : (s.stopWith c).pc = s.pc := rfl
@[simp] theorem State.stopWith_ir (s : State) (c : StopCause) : (s.stopWith c).ir = s.ir := rfl
@[simp] theorem State.stopWith_args (s : State) (c : StopCause) : (s.stopWith c).args = s.args := rfl
@[simp] theorem State.stopWith_upc (s : State) (c : StopCause) : (s.stopWith c).upc = s.upc := rfl
@[simp] theorem State.stopWith_tc (s : State) (c : StopCause) : (s.stopWith c).tc = s.tc := rfl
@[simp] theorem State.stopWith_ic (s : State) (c : StopCause) : (s.stopWith c).ic = s.ic := rfl
@[simp] theorem State.stopWith_queue (s : State) (c : StopCause) : (s.stopWith c).queue = s.queue := rfl
@[simp] theorem State.stopWith_output (s : State) (c : StopCause) : (s.stopWith c).output = s.output := rfl
@[simp] theorem State.stopWith_status (s : State) (c : StopCause) : (s.stopWith c).status = .stopped (s.outcomeOf c) := rfl
@[simp] theorem State.stopWith_program (s : State) (c : StopCause) : (s.stopWith c).program = s.program := rfl
@[simp] theorem State.stopWith_size (s : State) (c : StopCause) : (s.stopWith c).size = s.size := rfl
@[simp] theorem State.stopWith_config (s : State) (c : StopCause) : (s.stopWith c).config = s.config := rfl

@[simp] theorem State.latchInstr_acc (s : State) (o : Opcode) (xs : List Int) : (s.latchInstr o xs).acc = s.acc := rfl
@[simp] theorem State.latchInstr_br (s : State) (o : Opcode) (xs : List Int) : (s.latchInstr o xs).br = s.br := rfl
@[simp] theorem State.latchInstr_alu (s : State) (o : Opcode) (xs : List Int) : (s.latchInstr o xs).alu = s.alu := rfl
@[simp] theorem State.latchInstr_da (s : State) (o : Opcode) (xs : List Int) : (s.latchInstr o xs).da = s.da := rfl
@[simp] theorem State.latchInstr_mem (s : State) (o : Opcode) (xs : List Int) : (s.latchInstr o xs).mem = s.mem := rfl
@[simp] theorem State.latchInstr_pc (s : State) (o : Opcode) (xs : List Int) : (s.latchInstr o xs).pc = s.pc := rfl
@[simp] theorem State.latchInstr_ir (s : State) (o : Opcode) (xs : List Int) : (s.latchInstr o xs).ir = some o := rfl
@[simp] theorem State.latchInstr_args (s : State) (o : Opcode) (xs : List Int) : (s.latchInstr o xs).args = xs := rfl
@[simp] theorem State.latchInstr_upc (s : State) (o : Opcode) (xs : List Int) : (s.latchInstr o xs).upc = 0 := rfl
@[simp] theorem State.latchInstr_tc (s : State) (o : Opcode) (xs : List Int) : (s.latchInstr o xs).tc = s.tc := rfl
@[simp] theorem State.latchInstr_ic (s : State) (o : Opcode) (xs : List Int) : (s.latchInstr o xs).ic = s.ic := rfl
@[simp] theorem State.latchInstr_queue (s : State) (o : Opcode) (xs : List Int) : (s.latchInstr o xs).queue = s.queue := rfl
@[simp] theorem State.latchInstr_output (s : State) (o : Opcode) (xs : List Int) : (s.latchInstr o xs).output = s.output := rfl
@[simp] theorem State.latchInstr_status (s : State) (o : Opcode) (xs : List Int) : (s.latchInstr o xs).status = s.status := rfl
@[simp] theorem State.latchInstr_program (s : State) (o : Opcode) (xs : List Int) : (s.latchInstr o xs).program = s.program := rfl
@[simp] theorem State.latchInstr_size (s : State) (o : Opcode) (xs : List Int) : (s.latchInstr o xs).size = s.size := rfl
@[simp] theorem State.latchInstr_config (s : State) (o : Opcode) (xs : List Int) : (s.latchInstr o xs).config = s.config := rfl

@[simp] theorem State.tickBefore_acc (s : State) : (s.tickBefore).acc = s.acc := rfl
@[simp] theorem State.tickBefore_br (s : State) : (s.tickBefore).br = s.br := rfl
@[simp] theorem State.tickBefore_alu (s : State) : (s.tickBefore).alu = s.alu := rfl
@[simp] theorem State.tickBefore_da (s : State) : (s.tickBefore).da = s.da := rfl
@[simp] theorem State.tickBefore_mem (s : State) : (s.tickBefore).mem = s.mem := rfl
@[simp] theorem State.tickBefore_pc (s : State) : (s.tickBefore).pc = s.pc := rfl
@[simp] theorem State.tickBefore_ir (s : State) : (s.tickBefore).ir = s.ir := rfl
@[simp] theorem State.tickBefore_args (s : State) : (s.tickBefore).args = s.args := rfl
@[simp] theorem State.tickBefore_upc (s : State) : (s.tickBefore).upc = s.upc := rfl
@[simp] theorem State.tickBefore_tc (s : State) : (s.tickBefore).tc = s.tc + if s.config.tickAtInvocation then 1 else 0 := rfl
@[simp] theorem State.tickBefore_ic (s : State) : (s.tickBefore).ic = s.ic := rfl
@[simp] theorem State.tickBefore_queue (s : State) : (s.tickBefore).queue = s.queue := rfl
@[simp] theorem State.tickBefore_output (s : State) : (s.tickBefore).output = s.output := rfl
@[simp] theorem State.tickBefore_status (s : State) : (s.tickBefore).status = s.status := rfl
@[simp] theorem State.tickBefore_program (s : State) : (s.tickBefore).program = s.program := rfl
@[simp] theorem State.tickBefore_size (s : State) : (s.tickBefore).size = s.size := rfl
@[simp] theorem State.tickBefore_config (s : State) : (s.tickBefore).config = s.config := rfl

@[simp] theorem State.tickAfter_acc (s : State) : (s.tickAfter).acc = s.acc := rfl
@[simp] theorem State.tickAfter_br (s : State) : (s.tickAfter).br = s.br := rfl
@[simp] theorem State.tickAfter_alu (s : State) : (s.tickAfter).alu = s.alu := rfl
@[simp] theorem State.tickAfter_da (s : State) : (s.tickAfter).da = s.da := rfl
@[simp] theorem State.tickAfter_mem (s : State) : (s.tickAfter).mem = s.mem := rfl
@[simp] theorem State.tickAfter_pc (s : State) : (s.tickAfter).pc = s.pc := rfl
@[simp] theorem State.tickAfter_ir (s : State) : (s.tickAfter).ir = s.ir := rfl
@[simp] theorem State.tickAfter_args (s : State) : (s.tickAfter).args = s.args := rfl
@[simp] theorem State.tickAfter_upc (s : State) : (s.tickAfter).upc = s.upc := rfl
@[simp] theorem State.tickAfter_tc (s : State) : (s.tickAfter).tc = s.tc + if s.config.tickAtInvocation || decide (s.status ≠ .running) then 0 else 1 := rfl
@[simp] theorem State.tickAfter_ic (s : State) : (s.tickAfter).ic = s.ic := rfl
@[simp] theorem State.tickAfter_queue (s : State) : (s.tickAfter).queue = s.queue := rfl
@[simp] theorem State.tickAfter_output (s : State) : (s.tickAfter).output = s.output := rfl
@[simp] theorem State.tickAfter_status (s : State) : (s.tickAfter).status = s.status := rfl
@[simp] theorem State.tickAfter_program (s : State) : (s.tickAfter).program = s.program := rfl
@[simp] theorem State.tickAfter_size (s : State) : (s.tickAfter).size = s.size := rfl
@[simp] theorem State.tickAfter_config (s : State) : (s.tickAfter).config = s.config := rfl

@[simp] theorem State.upcNext_acc (s : State) : (s.upcNext).acc = s.acc := rfl
@[simp] theorem State.upcNext_br (s : State) : (s.upcNext).br = s.br := rfl
@[simp] theorem State.upcNext_alu (s : State) : (s.upcNext).alu = s.alu := rfl
@[simp] theorem State.upcNext_da (s : State) : (s.upcNext).da = s.da := rfl
@[simp] theorem State.upcNext_mem (s : State) : (s.upcNext).mem = s.mem := rfl
@[simp] theorem State.upcNext_pc (s : State) : (s.upcNext).pc = s.pc := rfl
@[simp] theorem State.upcNext_ir (s : State) : (s.upcNext).ir = s.ir := rfl
@[simp] theorem State.upcNext_args (s : State) : (s.upcNext).args = s.args := rfl
@[simp] theorem State.upcNext_upc (s : State) : (s.upcNext).upc = s.upc + 1 := rfl
@[simp] theorem State.upcNext_tc (s : State) : (s.upcNext).tc = s.tc := rfl
@[simp] theorem State.upcNext_ic (s : State) : (s.upcNext).ic = s.ic := rfl
@[simp] theorem State.upcNext_queue (s : State) : (s.upcNext).queue = s.queue := rfl
@[simp] theorem State.upcNext_output (s : State) : (s.upcNext).output = s.output := rfl
@[simp] theorem State.upcNext_status (s : State) : (s.upcNext).status = s.status := rfl
@[simp] theorem State.upcNext_program (s : State) : (s.upcNext).program = s.program := rfl
@[simp] theorem State.upcNext_size (s : State) : (s.upcNext).size = s.size := rfl
@[simp] theorem State.upcNext_config (s : State) : (s.upcNext).config = s.config := rfl

@[simp] theorem State.countInstruction_acc (s : State) : (s.countInstruction).acc = s.acc := rfl
@[simp] theorem State.countInstruction_br (s : State) : (s.countInstruction).br = s.br := rfl
@[simp] theorem State.countInstruction_alu (s : State) : (s.countInstruction).alu = s.alu := rfl
@[simp] theorem State.countInstruction_da (s : State) : (s.countInstruction).da = s.da := rfl
@[simp] theorem State.countInstruction_mem (s : State) : (s.countInstruction).mem = s.mem := rfl
@[simp] theorem State.countInstruction_pc (s : State) : (s.countInstruction).pc = s.pc := rfl
@[simp] theorem State.countInstruction_ir (s : State) : (s.countInstruction).ir = s.ir := rfl
@[simp] theorem State.countInstruction_args (s : State) : (s.countInstruction).args = s.args := rfl
@[simp] theorem State.countInstruction_upc (s : State) : (s.countInstruction).upc = s.upc := rfl
@[simp] theorem State.countInstruction_tc (s : State) : (s.countInstruction).tc = s.tc := rfl
@[simp] theorem State.countInstruction_ic (s : State) : (s.countInstruction).ic = s.ic + 1 := rfl
@[simp] theorem State.countInstruction_queue (s : State) : (s.countInstruction).queue = s.queue := rfl
@[simp] theorem State.countInstruction_output (s : State) : (s.countInstruction).output = s.output := rfl
@[simp] theorem State.countInstruction_status (s : State) : (s.countInstruction).status = s.status := rfl
@[simp] theorem State.countInstruction_program (s : State) : (s.countInstruction).program = s.program := rfl
@[simp] theorem State.countInstruction_size (s : State) : (s.countInstruction).size = s.size := rfl
@[simp] theorem State.countInstruction_config (s : State) : (s.countInstruction).config = s.config := rfl

@[simp] theorem State.outcomeOf_inputExhausted (s : State) : s.outcomeOf .inputExhausted = .inputExhausted := rfl
@[simp] theorem State.outcomeOf_fault (s : State) (c : FaultCause) :
    s.outcomeOf (.fault c) = .fault { cause := c, context := { pc := s.pc, tc := s.tc, ic := s.ic } } := rfl

end Sys2Proof.Machine
end

