-- ==== Sys2Proof/Laws/Memory.lean ====
section
/-!
SUPPORT. The memory laws: every memory operation keeps the canonical form and the bound; a write leaves every other
cell alone; in canonical form a read after a write gives the value written.
-/

namespace Sys2Proof.Machine

@[simp] theorem Memory.read_nil (a : Nat) : Memory.read [] a = 0 := rfl

theorem Memory.read_cons (k : Nat) (v : Int) (m : Memory) (a : Nat) :
    Memory.read ((k, v) :: m) a = if k = a then v else Memory.read m a := rfl

/-- The canonical form is kept by a lower bound that is lower still. -/
theorem Memory.wfAbove_mono {m : Memory} {lo hi : Nat} (h : lo ≤ hi) (hm : Memory.wfAbove hi m = true) :
    Memory.wfAbove lo m = true := by
  cases m with
  | nil => rfl
  | cons e m =>
    obtain ⟨k, v⟩ := e
    simp only [Memory.wfAbove, Bool.and_eq_true, decide_eq_true_eq] at hm ⊢
    exact ⟨⟨by omega, hm.1.2⟩, hm.2⟩

/-- A cell below the lower bound of a canonical memory holds the unlisted value. -/
theorem Memory.read_of_lt {m : Memory} {lo a : Nat} (h : a < lo) (hm : Memory.wfAbove lo m = true) :
    Memory.read m a = Memory.unlisted := by
  induction m generalizing lo with
  | nil => rfl
  | cons e m ih =>
    obtain ⟨k, v⟩ := e
    simp only [Memory.wfAbove, Bool.and_eq_true, decide_eq_true_eq] at hm
    rw [Memory.read_cons, if_neg (by omega)]
    exact ih (lo := k + 1) (by omega) hm.2

/-- A write keeps the canonical form above a bound. -/
theorem Memory.wfAbove_write {m : Memory} {lo a : Nat} (v : Int) (ha : lo ≤ a) (hm : Memory.wfAbove lo m = true) :
    Memory.wfAbove lo (Memory.write m a v) = true := by
  induction m generalizing lo with
  | nil =>
    by_cases hv : v = Memory.unlisted <;> simp [Memory.write, Memory.wfAbove, hv, ha]
  | cons e m ih =>
    obtain ⟨k, w⟩ := e
    simp only [Memory.wfAbove, Bool.and_eq_true, decide_eq_true_eq] at hm
    obtain ⟨⟨hk, hw⟩, hrest⟩ := hm
    by_cases h1 : a < k
    · by_cases hv : v = Memory.unlisted
      · simp [Memory.write, Memory.wfAbove, h1, hv, hk, hw, hrest]
      · simp [Memory.write, Memory.wfAbove, h1, hv, ha, hw, hrest]
    · by_cases h2 : a = k
      · subst h2
        by_cases hv : v = Memory.unlisted
        · simpa [Memory.write, hv] using Memory.wfAbove_mono (by omega) hrest
        · simp [Memory.write, Memory.wfAbove, hv, ha, hrest]
      · simp [Memory.write, Memory.wfAbove, h1, h2, hk, hw, ih (lo := k + 1) (by omega) hrest]

/-- A write keeps the canonical form. -/
theorem Memory.wf_write {m : Memory} (a : Nat) (v : Int) (hm : m.wf = true) : (Memory.write m a v).wf = true :=
  Memory.wfAbove_write v (Nat.zero_le a) hm

/-- A write below the bound keeps every listed cell below it. -/
theorem Memory.below_write {m : Memory} {n a : Nat} (v : Int) (ha : a < n) (hm : m.below n = true) :
    (Memory.write m a v).below n = true := by
  induction m with
  | nil => by_cases hv : v = Memory.unlisted <;> simp [Memory.write, Memory.below, hv, ha]
  | cons e m ih =>
    obtain ⟨k, w⟩ := e
    simp only [Memory.below, List.all_cons, Bool.and_eq_true, decide_eq_true_eq] at hm ih
    unfold Memory.write Memory.below
    split
    · split <;> simp [hm.1, hm.2, ha]
    · split
      · split <;> simp [hm.2, ha]
      · simp [hm.1, ih hm.2]

/-- A write leaves every other cell alone, in any memory. -/
theorem Memory.read_write_other (m : Memory) {a b : Nat} (v : Int) (h : b ≠ a) :
    Memory.read (Memory.write m a v) b = Memory.read m b := by
  induction m with
  | nil => by_cases hv : v = Memory.unlisted <;> simp [Memory.write, Memory.read_cons, hv, h.symm]
  | cons e m ih =>
    obtain ⟨k, w⟩ := e
    unfold Memory.write
    split
    · split
      · rfl
      · rw [Memory.read_cons, if_neg h.symm]
    · split
      · rename_i h2
        subst h2
        split <;> simp [Memory.read_cons, h.symm]
      · simp [Memory.read_cons, ih]

/-- In a canonical memory a read after a write gives the value written. -/
theorem Memory.read_write_self {m : Memory} {lo : Nat} (a : Nat) (v : Int) (hm : Memory.wfAbove lo m = true) :
    Memory.read (Memory.write m a v) a = v := by
  induction m generalizing lo with
  | nil => by_cases hv : v = Memory.unlisted <;> simp [Memory.write, Memory.read_cons, hv]; rfl
  | cons e m ih =>
    obtain ⟨k, w⟩ := e
    simp only [Memory.wfAbove, Bool.and_eq_true, decide_eq_true_eq] at hm
    unfold Memory.write
    split
    · split
      · rename_i h1 hv
        rw [Memory.read_cons, if_neg (by omega), hv]
        exact Memory.read_of_lt (lo := k + 1) (by omega) hm.2
      · simp [Memory.read_cons]
    · split
      · rename_i h2
        subst h2
        split
        · rename_i hv
          rw [hv]
          exact Memory.read_of_lt (lo := a + 1) (by omega) hm.2
        · simp [Memory.read_cons]
      · rename_i h2
        rw [Memory.read_cons, if_neg (fun h => h2 h.symm)]
        exact ih hm.2

/-- The initial contents are in canonical form (20_memory R34). -/
theorem Memory.wfAbove_ofData (i : Nat) (vs : List Int) : Memory.wfAbove i (Memory.ofData i vs) = true := by
  induction vs generalizing i with
  | nil => rfl
  | cons v vs ih =>
    by_cases hv : v = Memory.unlisted
    · simpa [Memory.ofData, hv] using Memory.wfAbove_mono (Nat.le_succ i) (ih (i + 1))
    · simp [Memory.ofData, hv, Memory.wfAbove, ih]

/-- The initial contents list no cell past the end of the data (20_memory R34). -/
theorem Memory.below_ofData {i n : Nat} (vs : List Int) (h : i + vs.length ≤ n) :
    (Memory.ofData i vs).below n = true := by
  induction vs generalizing i with
  | nil => rfl
  | cons v vs ih =>
    simp only [List.length_cons] at h
    have := ih (i := i + 1) (by omega)
    by_cases hv : v = Memory.unlisted
    · simpa [Memory.ofData, hv] using this
    · simp only [Memory.below] at this ⊢
      simp [Memory.ofData, hv, this]
      omega

end Sys2Proof.Machine
end

