-- ==== Sys2Proof/Laws/Ops.lean ====
section
/-!
SUPPORT. What each shared operation can do, said once. atCell is the shape every memory micro-operation has: latch
an address, then reach the cell.
-/

namespace Sys2Proof.Machine

@[simp] theorem Flow.andThen_go (s : State) (k : State → Flow) : (Flow.go s).andThen k = k s := rfl
@[simp] theorem Flow.andThen_raised (s : State) (k : State → Flow) : (Flow.raised s).andThen k = .raised s := rfl
@[simp] theorem Flow.andThen_noArgument (i : Nat) (k : State → Flow) :
    (Flow.noArgument i).andThen k = .noArgument i := rfl
@[simp] theorem Flow.outcome_go (s : State) : (Flow.go s).outcome = .next s := rfl
@[simp] theorem Flow.outcome_raised (s : State) : (Flow.raised s).outcome = .next s := rfl
@[simp] theorem Flow.outcome_noArgument (i : Nat) : (Flow.noArgument i).outcome = .refused (.noArgument i) := rfl

/-- Nothing more to do. -/
@[simp] theorem Flow.andThen_go_right (f : Flow) : (f.andThen fun s => .go s) = f := by cases f <;> rfl

/-- Sequencing is associative. -/
theorem Flow.andThen_assoc (f : Flow) (k l : State → Flow) :
    (f.andThen k).andThen l = f.andThen fun s => (k s).andThen l := by cases f <;> rfl

/-- P holds of the state an operation leaves, if it leaves one. -/
def Flow.Leaves (f : Flow) (P : State → Prop) : Prop :=
  match f with
  | .go s => P s
  | .raised s => P s
  | .noArgument _ => True

@[simp] theorem Flow.leaves_go (s : State) (P : State → Prop) : (Flow.go s).Leaves P = P s := rfl
@[simp] theorem Flow.leaves_raised (s : State) (P : State → Prop) : (Flow.raised s).Leaves P = P s := rfl
@[simp] theorem Flow.leaves_noArgument (i : Nat) (P : State → Prop) : (Flow.noArgument i).Leaves P = True := rfl

/-- What is left by first then next, from what each leaves. -/
theorem Flow.leaves_andThen {f : Flow} {k : State → Flow} {P : State → Prop} (hf : f.Leaves P)
    (hk : ∀ s, P s → (k s).Leaves P) : (f.andThen k).Leaves P := by
  cases f with
  | go s => exact hk s hf
  | raised s => exact hf
  | noArgument i => trivial

/-- A next state is what the flow left. -/
theorem Flow.leaves_of_outcome {f : Flow} {P : State → Prop} {t : State} (hf : f.Leaves P)
    (h : f.outcome = .next t) : P t := by
  cases f <;> simp_all

@[simp] theorem raise_eq (c : StopCause) (s : State) : raise c s = .raised (s.stopWith c) := rfl

/-- A backed cell lies in the latch's range, but for one past a spare cell S. -/
theorem State.backed_iff (s : State) (a : Int) :
    s.backed a = true ↔ 0 ≤ a ∧ (a < (s.size : Int) ∨ (a = (s.size : Int) ∧ s.config.unbackedCellFaults = false)) := by
  unfold State.backed isBacked cellCountOf
  cases s.config.unbackedCellFaults <;> simp
  omega

/-- Every backed cell can be latched. -/
theorem State.latch_of_backed {s : State} {a : Int} (h : s.backed a = true) : inLatchRange s.size a = true := by
  rw [State.backed_iff] at h
  rw [inLatchRange, decide_eq_true_eq]
  omega

/-- What the latch accepts and no access reaches is S, where an access there faults. -/
theorem State.eq_size_of_not_backed {s : State} {a : Int} (hl : inLatchRange s.size a = true) (hb : ¬ s.backed a = true) :
    a = (s.size : Int) ∧ s.config.unbackedCellFaults = true := by
  rw [State.backed_iff] at hb
  rw [inLatchRange, decide_eq_true_eq] at hl
  cases h : s.config.unbackedCellFaults <;> simp_all <;> omega

/-- Latch an address, then go on at the cell: the three cases of 40_datapath_alu R64 and 20_memory R36. -/
def atCell (a : Int) (s : State) (k : State → Flow) : Flow :=
  if inLatchRange s.size a then
    if s.backed a then k { s with da := a }
    else .raised (State.stopWith { s with da := a } (.fault (.unbackedCell a)))
  else .raised (s.stopWith (.fault (.dataAddress a)))

/-- At a backed cell the operation goes on. -/
theorem atCell_backed {a : Int} {s : State} (k : State → Flow) (h : s.backed a = true) :
    atCell a s k = k { s with da := a } := by
  rw [atCell, if_pos (State.latch_of_backed h), if_pos h]

/-- At S, not backed, the address is latched and the access faults. -/
theorem atCell_unbacked {a : Int} {s : State} (k : State → Flow) (h : ¬ s.backed a = true)
    (hl : inLatchRange s.size a = true) :
    atCell a s k = .raised (State.stopWith { s with da := a } (.fault (.unbackedCell a))) := by
  rw [atCell, if_pos hl, if_neg h]

/-- Outside 0..S the latch faults. -/
theorem atCell_outside {a : Int} {s : State} (k : State → Flow) (hl : ¬ inLatchRange s.size a = true) :
    atCell a s k = .raised (s.stopWith (.fault (.dataAddress a))) := if_neg hl

/-- A latch and an access at the latched index are atCell. -/
theorem latchAddress_then (a : Int) (s : State) (k : State → Flow) (k' : State → Flow)
    (hok : s.backed a = true → k { s with da := a } = k' { s with da := a })
    (hbad : ¬ s.backed a = true → k { s with da := a } =
      .raised (State.stopWith { s with da := a } (.fault (.unbackedCell a)))) :
    (latchAddress a s).andThen k = atCell a s k' := by
  by_cases hb : s.backed a = true
  · rw [atCell_backed _ hb, latchAddress, if_pos (State.latch_of_backed hb)]
    exact hok hb
  · by_cases hl : inLatchRange s.size a = true
    · rw [atCell_unbacked _ hb hl, latchAddress, if_pos hl]
      exact hbad hb
    · rw [atCell_outside _ hl, latchAddress, if_neg hl]
      rfl

/-- Latch then load (40_datapath_alu R64, R66). -/
theorem latchAddress_load (a : Int) (s : State) :
    (latchAddress a s).andThen latchAccFromMemory = atCell a s fun t => .go { t with acc := s.cell a } :=
  latchAddress_then a s _ _
    (fun h => by
      have h' : State.backed { s with da := a } a = true := h
      simp only [latchAccFromMemory, memRead, h', if_true]
      rfl)
    (fun h => by
      have h' : State.backed { s with da := a } a = false := Bool.not_eq_true _ ▸ h
      simp only [latchAccFromMemory, memRead, h', Bool.false_eq_true, if_false]
      rfl)

/-- Latch then store (40_datapath_alu R64, R77). -/
theorem latchAddress_store (a : Int) (s : State) (v : State → Int) :
    ((latchAddress a s).andThen fun t => memWrite t t.da (v t)) =
      atCell a s fun t => .go { t with mem := s.storeCell a (v t) } :=
  latchAddress_then a s _ _
    (fun h => by
      have h' : State.backed { s with da := a } a = true := h
      simp only [memWrite, h', if_true]
      rfl)
    (fun h => by
      have h' : State.backed { s with da := a } a = false := Bool.not_eq_true _ ▸ h
      simp only [memWrite, h', Bool.false_eq_true, if_false]
      rfl)

/-- alu_apply on a backed cell (40_datapath_alu R71). -/
theorem aluApply_memory {op : AluOp} {rsel : RightSel} {s : State} (h : s.backed s.da = true) :
    aluApply op .memory rsel s =
      match aluResult s.config.remConvention op (s.cell s.da) (rightOperand rsel s) with
      | .error c => .raised (s.stopWith (.fault c))
      | .ok v => .go { s with alu := v } := by
  simp only [aluApply, leftOperand, memRead, h, if_true]
  rfl

/-- alu_apply at S faults, and writes nothing (40_datapath_alu R69, R71). -/
theorem aluApply_unbacked {op : AluOp} {rsel : RightSel} {s : State} (h : ¬ s.backed s.da = true) :
    aluApply op .memory rsel s = .raised (s.stopWith (.fault (.unbackedCell s.da))) := by
  simp only [aluApply, leftOperand, memRead, h]
  rfl

end Sys2Proof.Machine
end

