-- ==== Sys2Proof/Laws/MicroOps.lean ====
section
/-!
SUPPORT. One equation per micro-operation (41_microops R85 to R100): what it does, in terms of atCell. Later proofs
cite these and never unfold a control word.
-/

namespace Sys2Proof.Machine

theorem perform_readArg0 (s : State) :
    perform .readArg0 s = withArg 0 (fun a => atCell a s fun t => .go { t with acc := s.cell a }) s := by
  simp only [perform, controlWord, performSignals, performSignal, latchDataAddress, latchAccumulator, withArg]
  cases s.args[0]? with
  | none => rfl
  | some a =>
    simp only [Flow.andThen_go_right]
    exact latchAddress_load a s

theorem perform_readIndirect (s : State) :
    perform .readIndirect s = atCell s.acc s fun t => .go { t with acc := s.cell s.acc } := by
  simp only [perform, controlWord, performSignals, performSignal, latchDataAddress, latchAccumulator,
    Flow.andThen_go_right]
  exact latchAddress_load s.acc s

/-- Latch argument i, then store a value. -/
theorem store_signals (i : Nat) (s : State) (v : State → Int) :
    ((withArg i (fun a => latchAddress a s) s).andThen fun t => (memWrite t t.da (v t)).andThen .go) =
      withArg i (fun a => atCell a s fun t => .go { t with mem := s.storeCell a (v t) }) s := by
  simp only [withArg]
  cases s.args[i]? with
  | none => rfl
  | some a =>
    simp only [Flow.andThen_go_right]
    exact latchAddress_store a s v

theorem perform_writeArg1 (s : State) :
    perform .writeArg1 s = withArg 1 (fun a => atCell a s fun t => .go { t with mem := s.storeCell a s.acc }) s :=
  (store_signals 1 s State.acc).trans (by simp only [withArg, atCell])

theorem perform_writeArg0 (s : State) :
    perform .writeArg0 s = withArg 0 (fun a => atCell a s fun t => .go { t with mem := s.storeCell a s.acc }) s :=
  (store_signals 0 s State.acc).trans (by simp only [withArg, atCell])

theorem perform_writeBrArg0 (s : State) :
    perform .writeBrArg0 s = withArg 0 (fun a => atCell a s fun t => .go { t with mem := s.storeCell a s.br }) s :=
  (store_signals 0 s State.br).trans (by simp only [withArg, atCell])

/-- Latch argument i, then apply the ALU to the cell and go on with k. -/
theorem alu_signals (i : Nat) (op : AluOp) (rsel : RightSel) (s : State) (k : State → Flow) :
    ((withArg i (fun a => latchAddress a s) s).andThen fun t => (aluApply op .memory rsel t).andThen k) =
      withArg i (fun a => atCell a s fun t =>
        match aluResult s.config.remConvention op (s.cell a) (rightOperand rsel s) with
        | .error c => .raised (t.stopWith (.fault c))
        | .ok v => k { t with alu := v }) s := by
  simp only [withArg]
  cases s.args[i]? with
  | none => rfl
  | some a =>
    refine latchAddress_then a s _ _ (fun h => ?_) (fun h => ?_)
    · have h' : State.backed { s with da := a } a = true := h
      rw [aluApply_memory h']
      have hc : State.cell { s with da := a } a = s.cell a := rfl
      have hr : rightOperand rsel { s with da := a } = rightOperand rsel s := by cases rsel <;> rfl
      simp only [hc, hr]
      cases aluResult s.config.remConvention op (s.cell a) (rightOperand rsel s) <;> rfl
    · have h' : ¬ State.backed { s with da := a } a = true := h
      rw [aluApply_unbacked h']
      rfl

theorem perform_aluCmp (s : State) :
    perform .aluCmp s = withArg 1 (fun a => atCell a s fun t =>
      .go { t with alu := s.cell a - s.acc, acc := s.cell a - s.acc }) s :=
  (alu_signals 1 .cmp .accumulator s _).trans rfl

theorem perform_aluAdd (s : State) :
    perform .aluAdd s = withArg 1 (fun a => atCell a s fun t =>
      .go { t with alu := s.cell a + s.acc, acc := s.cell a + s.acc }) s :=
  (alu_signals 1 .add .accumulator s _).trans rfl

theorem perform_aluRem (s : State) :
    perform .aluRem s = withArg 1 (fun a => atCell a s fun t =>
      if s.cell a = 0 then .raised (t.stopWith (.fault (.divideByZero s.acc)))
      else .go { t with
        alu := remBy s.config.remConvention s.acc (s.cell a)
        acc := remBy s.config.remConvention s.acc (s.cell a) }) s := by
  refine (alu_signals 1 .remainder .accumulator s _).trans ?_
  simp only [aluResult, rightOperand]
  congr 1
  funext a
  congr 1
  funext t
  by_cases h : s.cell a = 0
  · simp [h]
  · simp [h]
    rfl

theorem perform_incAtArg0 (s : State) :
    perform .incAtArg0 s = withArg 0 (fun a => atCell a s fun t =>
      .go { t with alu := s.cell a + 1, br := s.cell a + 1 }) s :=
  (alu_signals 0 .increment .zero s _).trans rfl

theorem perform_writeFromInput (s : State) :
    perform .writeFromInput s =
      match s.queue with
      | [] => .raised (s.stopWith .inputExhausted)
      | c :: rest =>
        if isCharCode (c : Int) then
          withArg 0 (fun a => atCell a { s with queue := rest, acc := (c : Int) } fun t =>
            .go { t with mem := s.storeCell a c }) s
        else .raised (State.stopWith { s with queue := rest } (.fault (.inputCode c))) := by
  simp only [perform, controlWord, performSignals, performSignal, latchAccumulator, latchAccFromInput]
  cases hq : s.queue with
  | nil => simp
  | cons c rest =>
    cases hc : isCharCode (c : Int) with
    | false => simp [hc]
    | true =>
      simp only [hc, if_true, Flow.andThen_go]
      exact (store_signals 0 { s with queue := rest, acc := (c : Int) } State.acc).trans
        (by simp only [withArg, atCell]; rfl)

theorem perform_outNum (s : State) : perform .outNum s = .go { s with output := s.output ++ [.num s.acc] } := rfl

theorem perform_outChar (s : State) :
    perform .outChar s =
      if isCharCode s.acc then .go { s with output := s.output ++ [.char s.acc] }
      else .raised (s.stopWith (.fault (.outputCodeOutOfRange s.acc))) := by
  simp only [perform, controlWord, performSignals, performSignal, emitChar]
  cases h : isCharCode s.acc <;> simp

theorem perform_nextPc (s : State) : perform .nextPc s = .go { s with pc := s.pc + 1 } := rfl

theorem perform_jump (s : State) : perform .jump s = withArg 0 (fun a => .go { s with pc := a }) s := by
  simp only [perform, controlWord, performSignals, performSignal, pcJump, withArg]
  cases s.args[0]? <;> rfl

theorem perform_halt (s : State) : perform .halt s = .go { s with status := .stopped .halted } := rfl

theorem perform_branchIfZero (s : State) :
    perform .branchIfZero s =
      if s.acc = 0 then withArg 0 (fun a => .go { s with pc := a }) s else .go { s with pc := s.pc + 1 } := by
  simp only [perform, controlWord, performSignals, performSignal, pcBranchIfZero, State.isZero, pcJump, pcNext,
    withArg, decide_eq_true_eq]
  by_cases h : s.acc = 0
  · simp only [h, if_true]
    cases s.args[0]? <;> rfl
  · simp [h]

end Sys2Proof.Machine
end

