-- ==== Sys2Proof/Laws/Sequence.lean ====
section
/-!
SUPPORT. What a micro-operation, a sequence and an instruction leave: the general lemma that lifts a property from
the micro-operations of a sequence to the instruction, and the part of the state no micro-operation writes.
-/

namespace Sys2Proof.Machine

/-- The property at a cell, from the property in its three cases. -/
theorem atCell_leaves {a : Int} {s : State} {k : State → Flow} {P : State → Prop}
    (hok : inLatchRange s.size a = true → s.backed a = true → (k { s with da := a }).Leaves P)
    (hunbacked : inLatchRange s.size a = true → s.backed a = false →
      P (State.stopWith { s with da := a } (.fault (.unbackedCell a))))
    (hout : inLatchRange s.size a = false → P (s.stopWith (.fault (.dataAddress a)))) :
    (atCell a s k).Leaves P := by
  unfold atCell
  cases hl : inLatchRange s.size a with
  | false => simpa using hout hl
  | true =>
    cases hb : s.backed a with
    | false => simpa using hunbacked hl hb
    | true => simpa using hok hl hb

/-- The property after an argument is read, from the property for the argument there is. -/
theorem withArg_leaves {i : Nat} {s : State} {k : Int → Flow} {P : State → Prop}
    (h : ∀ a, s.args[i]? = some a → (k a).Leaves P) : (withArg i k s).Leaves P := by
  unfold withArg
  cases ha : s.args[i]? with
  | none => trivial
  | some a => exact h a ha

/-- The part of the state that no micro-operation writes: the launch parameters, the latched instruction and its
position, and the counters, which the control unit alone writes (41_microops R102, 10_state R29). -/
structure SameControl (s t : State) : Prop where
  program : t.program = s.program
  size : t.size = s.size
  config : t.config = s.config
  ir : t.ir = s.ir
  args : t.args = s.args
  upc : t.upc = s.upc
  tc : t.tc = s.tc
  ic : t.ic = s.ic

/-- No micro-operation writes the launch parameters, the latched instruction or a counter. -/
theorem perform_sameControl (op : MicroOp) (s : State) : (perform op s).Leaves (SameControl s) := by
  cases op
  case readArg0 =>
    rw [perform_readArg0]
    exact withArg_leaves fun a _ => atCell_leaves (fun _ _ => by constructor <;> rfl) (fun _ _ => by constructor <;> rfl)
      (fun _ => by constructor <;> rfl)
  case writeFromInput =>
    rw [perform_writeFromInput]
    cases s.queue with
    | nil => constructor <;> rfl
    | cons c rest =>
      cases hc : isCharCode (c : Int) with
      | false => simp only [hc]; constructor <;> rfl
      | true =>
        simp only [hc, if_true]
        exact withArg_leaves fun a _ => atCell_leaves (fun _ _ => by constructor <;> rfl)
          (fun _ _ => by constructor <;> rfl) (fun _ => by constructor <;> rfl)
  case readIndirect =>
    rw [perform_readIndirect]
    exact atCell_leaves (fun _ _ => by constructor <;> rfl) (fun _ _ => by constructor <;> rfl)
      (fun _ => by constructor <;> rfl)
  case writeArg1 =>
    rw [perform_writeArg1]
    exact withArg_leaves fun a _ => atCell_leaves (fun _ _ => by constructor <;> rfl) (fun _ _ => by constructor <;> rfl)
      (fun _ => by constructor <;> rfl)
  case writeArg0 =>
    rw [perform_writeArg0]
    exact withArg_leaves fun a _ => atCell_leaves (fun _ _ => by constructor <;> rfl) (fun _ _ => by constructor <;> rfl)
      (fun _ => by constructor <;> rfl)
  case writeBrArg0 =>
    rw [perform_writeBrArg0]
    exact withArg_leaves fun a _ => atCell_leaves (fun _ _ => by constructor <;> rfl) (fun _ _ => by constructor <;> rfl)
      (fun _ => by constructor <;> rfl)
  case aluCmp =>
    rw [perform_aluCmp]
    exact withArg_leaves fun a _ => atCell_leaves (fun _ _ => by constructor <;> rfl) (fun _ _ => by constructor <;> rfl)
      (fun _ => by constructor <;> rfl)
  case aluRem =>
    rw [perform_aluRem]
    refine withArg_leaves fun a _ => atCell_leaves (fun _ _ => ?_) (fun _ _ => by constructor <;> rfl)
      (fun _ => by constructor <;> rfl)
    by_cases h : s.cell a = 0
    · simp only [h, if_true]
      constructor <;> rfl
    · simp only [h, if_false]
      constructor <;> rfl
  case aluAdd =>
    rw [perform_aluAdd]
    exact withArg_leaves fun a _ => atCell_leaves (fun _ _ => by constructor <;> rfl) (fun _ _ => by constructor <;> rfl)
      (fun _ => by constructor <;> rfl)
  case incAtArg0 =>
    rw [perform_incAtArg0]
    exact withArg_leaves fun a _ => atCell_leaves (fun _ _ => by constructor <;> rfl) (fun _ _ => by constructor <;> rfl)
      (fun _ => by constructor <;> rfl)
  case outNum => constructor <;> rfl
  case outChar =>
    rw [perform_outChar]
    cases isCharCode s.acc <;> constructor <;> rfl
  case nextPc => constructor <;> rfl
  case jump =>
    rw [perform_jump]
    exact withArg_leaves fun a _ => by constructor <;> rfl
  case halt => constructor <;> rfl
  case branchIfZero =>
    rw [perform_branchIfZero]
    by_cases h : s.acc = 0
    · simp only [h, if_true]
      exact withArg_leaves fun a _ => by constructor <;> rfl
    · simp only [h, if_false]
      constructor <;> rfl

/-- The property after an invocation, from the property after the micro-operation's effect. -/
theorem invoke_leaves {op : MicroOp} {s : State} {P : State → Prop}
    (hgo : ∀ t, perform op s.tickBefore = .go t → P t.tickAfter.upcNext)
    (hraised : ∀ t, perform op s.tickBefore = .raised t → P t) : (invoke op s).Leaves P := by
  unfold invoke
  cases h : perform op s.tickBefore with
  | go t => simpa using hgo t h
  | raised t => simpa using hraised t h
  | noArgument i => trivial

/-- A property that every micro-operation of a sequence keeps holds of what the sequence leaves. -/
theorem runSequence_leaves {ops : List MicroOp} {s : State} {P : State → Prop} (hs : P s)
    (hop : ∀ op ∈ ops, ∀ t, P t → (invoke op t).Leaves P) : (runSequence ops s).Leaves P := by
  induction ops generalizing s with
  | nil => exact hs
  | cons op ops ih =>
    exact Flow.leaves_andThen (hop op (by simp) s hs) fun t ht => ih ht fun o ho => hop o (by simp [ho])

/-- How many arguments a micro-operation needs (41_microops R85 to R100). -/
def MicroOp.argsNeeded : MicroOp → Nat
  | .readArg0 | .writeFromInput | .writeArg0 | .writeBrArg0 | .incAtArg0 | .jump | .branchIfZero => 1
  | .writeArg1 | .aluCmp | .aluRem | .aluAdd => 2
  | .readIndirect | .outNum | .outChar | .nextPc | .halt => 0

/-- No opcode's sequence needs an argument its format has not (42_control_unit R106). -/
theorem argsNeeded_le_arity (o : Opcode) : ∀ op ∈ microcode o, op.argsNeeded ≤ o.arity := by
  cases o <;> decide

/-- An operation that leaves a state: it ran into no missing argument. -/
def Flow.LeavesState (f : Flow) : Prop := ∀ i, f ≠ .noArgument i

theorem withArg_leavesState {i : Nat} {s : State} {k : Int → Flow} (hi : i < s.args.length)
    (hk : ∀ a, (k a).LeavesState) : (withArg i k s).LeavesState := by
  unfold withArg
  rw [List.getElem?_eq_getElem hi]
  exact hk _

theorem atCell_leavesState {a : Int} {s : State} {k : State → Flow} (hk : ∀ t, (k t).LeavesState) :
    (atCell a s k).LeavesState := by
  unfold atCell
  cases inLatchRange s.size a
  · intro i h; simp at h
  · cases s.backed a
    · intro i h; simp at h
    · exact hk _

theorem Flow.go_leavesState (s : State) : (Flow.go s).LeavesState := fun _ h => by simp at h
theorem Flow.raised_leavesState (s : State) : (Flow.raised s).LeavesState := fun _ h => by simp at h

/-- With its arguments there, a micro-operation leaves a state. -/
theorem perform_leavesState {op : MicroOp} {s : State} (h : op.argsNeeded ≤ s.args.length) :
    (perform op s).LeavesState := by
  cases op <;> simp only [MicroOp.argsNeeded] at h
  case readArg0 =>
    exact perform_readArg0 s ▸ withArg_leavesState h fun _ => atCell_leavesState fun _ => Flow.go_leavesState _
  case writeFromInput =>
    rw [perform_writeFromInput]
    cases s.queue with
    | nil => exact Flow.raised_leavesState _
    | cons c rest =>
      simp only
      split
      · exact withArg_leavesState h fun _ => atCell_leavesState fun _ => Flow.go_leavesState _
      · exact Flow.raised_leavesState _
  case readIndirect => exact perform_readIndirect s ▸ atCell_leavesState fun _ => Flow.go_leavesState _
  case writeArg1 =>
    exact perform_writeArg1 s ▸ withArg_leavesState h fun _ => atCell_leavesState fun _ => Flow.go_leavesState _
  case writeArg0 =>
    exact perform_writeArg0 s ▸ withArg_leavesState h fun _ => atCell_leavesState fun _ => Flow.go_leavesState _
  case writeBrArg0 =>
    exact perform_writeBrArg0 s ▸ withArg_leavesState h fun _ => atCell_leavesState fun _ => Flow.go_leavesState _
  case aluCmp =>
    exact perform_aluCmp s ▸ withArg_leavesState h fun _ => atCell_leavesState fun _ => Flow.go_leavesState _
  case aluRem =>
    refine perform_aluRem s ▸ withArg_leavesState h fun a => atCell_leavesState fun t => ?_
    by_cases hz : s.cell a = 0
    · simpa [hz] using Flow.raised_leavesState _
    · simpa [hz] using Flow.go_leavesState _
  case aluAdd =>
    exact perform_aluAdd s ▸ withArg_leavesState h fun _ => atCell_leavesState fun _ => Flow.go_leavesState _
  case incAtArg0 =>
    exact perform_incAtArg0 s ▸ withArg_leavesState h fun _ => atCell_leavesState fun _ => Flow.go_leavesState _
  case outNum => exact Flow.go_leavesState _
  case outChar =>
    rw [perform_outChar]
    cases isCharCode s.acc
    · exact Flow.raised_leavesState _
    · exact Flow.go_leavesState _
  case nextPc => exact Flow.go_leavesState _
  case jump => exact perform_jump s ▸ withArg_leavesState h fun _ => Flow.go_leavesState _
  case halt => exact Flow.go_leavesState _
  case branchIfZero =>
    rw [perform_branchIfZero]
    by_cases hz : s.acc = 0
    · simpa only [hz, if_true] using withArg_leavesState h fun _ => Flow.go_leavesState _
    · simpa only [hz, if_false] using Flow.go_leavesState _

/-- A sequence whose micro-operations find their arguments leaves a state. -/
theorem runSequence_leavesState {ops : List MicroOp} {s : State}
    (h : ∀ op ∈ ops, op.argsNeeded ≤ s.args.length) : (runSequence ops s).LeavesState := by
  induction ops generalizing s with
  | nil => exact Flow.go_leavesState s
  | cons op ops ih =>
    have hp : (perform op s.tickBefore).LeavesState := perform_leavesState (h op (by simp))
    have hc := perform_sameControl op s.tickBefore
    unfold runSequence invoke
    cases hf : perform op s.tickBefore with
    | noArgument i => exact absurd hf (hp i)
    | raised t => exact Flow.raised_leavesState t
    | go t =>
      rw [hf] at hc
      refine ih fun o ho => ?_
      have : t.args = s.args := hc.args
      simpa [this] using h o (by simp [ho])

/-- Every arm of exec runs the microcode of the instruction's opcode on its arguments (42_control_unit R104). -/
theorem exec_eq (i : Instr) (s : State) : exec i s = runInstruction i.opcode i.args s := by cases i <;> rfl

/-- A property that the latched state has and every micro-operation of the opcode's sequence keeps holds of the
next state. -/
theorem exec_leaves {i : Instr} {s t : State} {P : State → Prop} (h : exec i s = .next t)
    (hs : P (s.latchInstr i.opcode i.args))
    (hop : ∀ op ∈ microcode i.opcode, ∀ u, P u → (invoke op u).Leaves P) : P t := by
  rw [exec_eq] at h
  exact Flow.leaves_of_outcome (runSequence_leaves hs hop) h

/-- No instruction writes the launch parameters or the instruction counter. -/
theorem exec_sameParameters {i : Instr} {s t : State} (h : exec i s = .next t) :
    t.program = s.program ∧ t.size = s.size ∧ t.config = s.config ∧ t.ic = s.ic := by
  refine exec_leaves (P := fun u => u.program = s.program ∧ u.size = s.size ∧ u.config = s.config ∧ u.ic = s.ic)
    h ⟨rfl, rfl, rfl, rfl⟩ fun op _ u hu => ?_
  have hc := perform_sameControl op u.tickBefore
  refine invoke_leaves (fun v hv => ?_) (fun v hv => ?_) <;> rw [hv] at hc <;>
    exact ⟨hc.program.trans hu.1, hc.size.trans hu.2.1, hc.config.trans hu.2.2.1, hc.ic.trans hu.2.2.2⟩

/-- What a step can do (42_control_unit R104, R105; 60_exceptions R152): it comes from a running state, and either
the fetch is outside the program and the run stops, or the decoded instruction runs with IC counted. -/
theorem step_cases {s t : State} (h : step s = .next t) :
    s.status = .running ∧
    ((s.slotAtPc = none ∧ t = s.countInstruction.stopWith (.fault (.programCounterOutOfRange s.pc))) ∨
     ∃ r i, s.slotAtPc = some r ∧ decode r = .ok i ∧ exec i s.countInstruction = .next t) := by
  unfold step stepWith at h
  cases hs : s.status with
  | stopped o => simp [hs] at h
  | running =>
    refine ⟨rfl, ?_⟩
    simp only [hs, stepRunning] at h
    cases hp : s.slotAtPc with
    | none => exact .inl ⟨rfl, by simpa [hp] using h.symm⟩
    | some r =>
      simp only [hp] at h
      cases hd : decode r with
      | error e => simp [hd] at h
      | ok i => exact .inr ⟨r, i, rfl, hd, by simpa [hd] using h⟩

end Sys2Proof.Machine
end

