-- ==== Sys2Proof/Laws/PerInstr.lean ====
section
/-!
SUPPORT. Statements made for every instruction, one lemma per constructor.
-/

namespace Sys2Proof.Laws

/-- The encoding of an instruction is a record the launch admits (30_encoding R54). -/
def EncodesWellFormed.Statement (i : Instr) : Prop := ∀ src : Int, (encodeAt src i).wf = true

theorem EncodesWellFormed.hlt : EncodesWellFormed.Statement .hlt := fun _ => rfl
theorem EncodesWellFormed.mov (a0 a1 : Int) : EncodesWellFormed.Statement (.mov a0 a1) := fun _ => rfl
theorem EncodesWellFormed.cmp (a0 a1 : Int) : EncodesWellFormed.Statement (.cmp a0 a1) := fun _ => rfl
theorem EncodesWellFormed.cmpIndirectInc (a0 a1 : Int) : EncodesWellFormed.Statement (.cmpIndirectInc a0 a1) :=
  fun _ => rfl
theorem EncodesWellFormed.remainder (a0 a1 : Int) : EncodesWellFormed.Statement (.remainder a0 a1) := fun _ => rfl
theorem EncodesWellFormed.add (a0 a1 : Int) : EncodesWellFormed.Statement (.add a0 a1) := fun _ => rfl
theorem EncodesWellFormed.inp (a0 : Int) : EncodesWellFormed.Statement (.inp a0) := fun _ => rfl
theorem EncodesWellFormed.out (a0 : Int) : EncodesWellFormed.Statement (.out a0) := fun _ => rfl
theorem EncodesWellFormed.outChar (a0 : Int) : EncodesWellFormed.Statement (.outChar a0) := fun _ => rfl
theorem EncodesWellFormed.outIndirect (a0 : Int) : EncodesWellFormed.Statement (.outIndirect a0) := fun _ => rfl
theorem EncodesWellFormed.jmp (a0 : Int) : EncodesWellFormed.Statement (.jmp a0) := fun _ => rfl
theorem EncodesWellFormed.branchEq (a0 : Int) : EncodesWellFormed.Statement (.branchEq a0) := fun _ => rfl

end Sys2Proof.Laws
end

