-- ==== Sys2Proof/Tests/Slice0.lean ====
section
/-!
SUPPORT. The model's own tests. Expected results are those of 95_test_vectors (cited by their ids) or are counted by
hand from the rules cited. The last part holds, for every statement with hypotheses, a witness that meets them.
-/

namespace Sys2Proof.Tests

open Sys2Proof.Machine Sys2Proof.Claims

/-- A machine with a program, cells, S and an input queue, everything else as after reset. -/
def mk (p : List Instr) (cells : List Int) (size : Nat) (q : List Nat := []) : State :=
  { State.reset with program := p.map encode, mem := Memory.ofData 0 cells, size := size, queue := q }

/-- The outcome is a next state that passes the check. -/
def nextIs (o : Host.Outcome State Fault Refusal) (check : State → Bool) : Bool :=
  match o with
  | .next t => check t
  | .fault _ => false
  | .refused _ => false

theorem of_nextIs {o : Host.Outcome State Fault Refusal} {check : State → Bool} (h : nextIs o check = true) :
    ∃ t, o = .next t ∧ check t = true := by
  cases o with
  | next t => exact ⟨t, rfl, h⟩
  | fault _ => cases h
  | refused _ => cases h

/-- STATUS after a fault with this cause and context. -/
def faultStatus (c : FaultCause) (pc : Int) (tc ic : Nat) : Status :=
  .stopped (.fault { cause := c, context := { pc := pc, tc := tc, ic := ic } })

/-! ### Decoding: the tags of 30_encoding R55, written out bit by bit -/

theorem test_decode_hlt : decode { op := 0b0000#4, args := [] } = .ok .hlt := by decide
theorem test_decode_mov : decode { op := 0b0001#4, args := [0, 1] } = .ok (.mov 0 1) := by decide
theorem test_decode_cmp : decode { op := 0b0010#4, args := [0, 1] } = .ok (.cmp 0 1) := by decide
theorem test_decode_cmpIndirectInc : decode { op := 0b0011#4, args := [0, 1] } = .ok (.cmpIndirectInc 0 1) := by decide
theorem test_decode_remainder : decode { op := 0b0100#4, args := [7, -3] } = .ok (.remainder 7 (-3)) := by decide
theorem test_decode_add : decode { op := 0b0101#4, args := [3, 2] } = .ok (.add 3 2) := by decide
theorem test_decode_in : decode { op := 0b0110#4, args := [5] } = .ok (.inp 5) := by decide
theorem test_decode_out : decode { op := 0b0111#4, args := [3] } = .ok (.out 3) := by decide
theorem test_decode_outChar : decode { op := 0b1000#4, args := [0] } = .ok (.outChar 0) := by decide
theorem test_decode_outIndirect : decode { op := 0b1001#4, args := [2] } = .ok (.outIndirect 2) := by decide
theorem test_decode_jmp : decode { op := 0b1010#4, args := [-1] } = .ok (.jmp (-1)) := by decide
theorem test_decode_branchEq : decode { op := 0b1011#4, args := [5] } = .ok (.branchEq 5) := by decide

/-- Tags 12 to 15 are reserved (30_encoding R56). -/
theorem test_decode_reserved :
    decode { op := 12#4, args := [] } = .error (.reservedTag 12) ∧ decode { op := 15#4, args := [0] } = .error (.reservedTag 15) := by
  decide

/-- The words of spec/opcode_table.json, operand words zeros. -/
theorem test_table_words :
    (List.range 16).map (decodeTableWord 8) =
      [some .hlt, some (.mov 0 0), some (.cmp 0 0), some (.cmpIndirectInc 0 0), some (.remainder 0 0), some (.add 0 0),
       some (.inp 0), some (.out 0), some (.outChar 0), some (.outIndirect 0), some (.jmp 0), some (.branchEq 0),
       none, none, none, none] := by decide

/-- The next step after withFetchWord runs the word's instruction: JMP 0 and CMP_INDIRECT_INC 0, 0 (6 ticks, R111). -/
theorem test_withFetchWord :
    nextIs (step (State.reset.withFetchWord 8 10)) (fun t => t.ir == some .jmp && t.tc == 1 && t.ic == 1) = true ∧
    nextIs (step (State.reset.withFetchWord 8 3)) (fun t => t.ir == some .cmpIndirectInc && t.tc == 6) = true := by decide

/-! ### Well-formedness: an ill-formed record for each check -/

/-- Tag 12 (95_test_vectors X6): refused by the tag check. -/
theorem test_wf_reserved_tag : Record.tagDefined { op := 12, args := [] } = false ∧ Record.wf { op := 12, args := [] } = false := by
  decide

/-- MOV 0, HLT 4 and JMP without a target (X3, X4), and an argument too many: refused by the arity check. -/
theorem test_wf_arity :
    Record.arityFits { op := 1, args := [0] } = false ∧ Record.wf { op := 1, args := [0] } = false ∧
    Record.wf { op := 0, args := [4] } = false ∧ Record.wf { op := 10, args := [] } = false ∧
    Record.wf { op := 7, args := [0, 1] } = false ∧ Record.wf { op := 5, args := [0, 1, 2] } = false := by decide

/-- The lowest malformed slot is named (X4). -/
theorem test_wf_program :
    firstMalformed [{ op := 0, args := [] }, { op := 0, args := [4] }, { op := 10, args := [] }] = some 1 := by decide

/-! ### One step of each instruction -/

/-- T5. -/
theorem test_hlt : nextIs (step (mk [.hlt] [3] 1))
    (fun t => t.status == .stopped .halted && t.pc == 0 && t.acc == 0 && t.tc == 1 && t.ic == 1) = true := by decide

/-- M1. -/
theorem test_mov : nextIs (step (mk [.mov 0 1] [-4, 9] 2))
    (fun t => t.mem == [(0, -4), (1, -4)] && t.acc == -4 && t.da == 1 && t.pc == 1 && t.tc == 3) = true := by decide

/-- M3: tick 2 faults at the cell that is not backed, after tick 1 has latched ACC. -/
theorem test_mov_unbacked : nextIs (step (mk [.mov 0 2] [5, 6] 2))
    (fun t => t.status == faultStatus (.unbackedCell 2) 0 2 1 && t.acc == 5 && t.da == 2) = true := by decide

/-- L1: M[a1] - M[a0]. -/
theorem test_cmp : nextIs (step (mk [.cmp 0 1] [2, 7] 2))
    (fun t => t.acc == 5 && t.alu == 5 && t.da == 1 && t.mem == [(0, 2), (1, 7)]) = true := by decide

/-- M4 with CMP: tick 1 faults at the latch. -/
theorem test_cmp_fault : nextIs (step (mk [.cmp 3 0] [2, 7] 2))
    (fun t => t.status == faultStatus (.dataAddress 3) 0 1 1 && t.acc == 0 && t.da == 0) = true := by decide

/-- L3. -/
theorem test_cmpIndirectInc : nextIs (step (mk [.cmpIndirectInc 0 1] [2, 0, 72, 0] 4))
    (fun t => t.acc == -72 && t.mem == [(0, 3), (2, 72)] && t.br == 3 && t.alu == 3 && t.da == 0 && t.tc == 6) = true := by
  decide

/-- L5: the pointer is not advanced on a fault. -/
theorem test_cmpIndirectInc_fault : nextIs (step (mk [.cmpIndirectInc 0 1] [3, 0, 0] 3))
    (fun t => t.status == faultStatus (.unbackedCell 3) 0 2 1 && t.mem == [(0, 3)] && t.acc == 3 && t.da == 3) = true := by
  decide

/-- L9 (floored), and the same operands truncated. -/
theorem test_remainder :
    nextIs (step (mk [.remainder 0 1] [7, -3] 2)) (fun t => t.acc == -2) = true ∧
    nextIs (step { mk [.remainder 0 1] [7, -3] 2 with config := { remConvention := .truncated } }) (fun t => t.acc == 1) = true := by
  decide

/-- L10. -/
theorem test_remainder_zero : nextIs (step (mk [.remainder 0 1] [7, 0] 2))
    (fun t => t.status == faultStatus (.divideByZero 7) 0 2 1 && t.acc == 7 && t.da == 1 && t.alu == 0) = true := by decide

/-- L13: source and destination are one cell. -/
theorem test_add_self : nextIs (step (mk [.add 0 0] [-5] 1)) (fun t => t.mem == [(0, -10)] && t.acc == -10) = true := by decide

/-- L14. -/
theorem test_add_unbacked : nextIs (step (mk [.add 0 1] [1] 1))
    (fun t => t.status == faultStatus (.unbackedCell 1) 0 2 1 && t.acc == 1 && t.da == 1) = true := by decide

/-- O1. -/
theorem test_in : nextIs (step (mk [.inp 3] [] 4 [65]))
    (fun t => t.mem == [(3, 65)] && t.acc == 65 && t.queue == [] && t.tc == 2) = true := by decide

/-- O4: the character is consumed before the address faults. -/
theorem test_in_fault : nextIs (step (mk [.inp 5] [] 2 [66, 67]))
    (fun t => t.status == faultStatus (.dataAddress 5) 0 1 1 && t.queue == [67] && t.acc == 66) = true := by decide

/-- O6. -/
theorem test_out : nextIs (step (mk [.out 0] [-30] 1))
    (fun t => t.output == [.num (-30)] && outputText t.output == ['-', '3', '0'] && t.tc == 3) = true := by decide

/-- O7 and 128, the first code past the range. -/
theorem test_outChar :
    nextIs (step (mk [.outChar 0] [72] 1)) (fun t => outputText t.output == ['H']) = true ∧
    nextIs (step (mk [.outChar 0] [128] 1)) (fun t => t.status == faultStatus (.outputCodeOutOfRange 128) 0 2 1) = true := by
  decide

/-- O9. -/
theorem test_outIndirect : nextIs (step (mk [.outIndirect 0] [2, 0, 105] 3))
    (fun t => outputText t.output == ['i'] && t.mem == [(0, 2), (2, 105)] && t.acc == 105 && t.da == 2) = true := by decide

/-- O10. -/
theorem test_outIndirect_unbacked : nextIs (step (mk [.outIndirect 0] [2] 2))
    (fun t => t.status == faultStatus (.unbackedCell 2) 0 2 1 && t.acc == 2 && t.da == 2) = true := by decide

/-- K3: the target is not checked by JMP. -/
theorem test_jmp : nextIs (step (mk [.jmp (-1)] [] 1)) (fun t => t.pc == -1 && t.status == .running && t.tc == 1) = true := by
  decide

/-- T1 (taken at ACC = 0) and U22 (not taken at ACC = -1). -/
theorem test_branchEq :
    nextIs (step (mk [.branchEq 2] [] 1)) (fun t => t.pc == 2) = true ∧
    nextIs (step { mk [.branchEq 2] [] 1 with acc := -1 }) (fun t => t.pc == 1) = true := by decide

/-! ### Around the instructions -/

/-- K1: an empty program faults at the first fetch, with no tick. -/
theorem test_empty_program : nextIs (step State.reset)
    (fun t => t.status == faultStatus (.programCounterOutOfRange 0) 0 0 1) = true := by decide

/-- K7's first instruction, and E4 with TICK_AT_INVOCATION = false: the tick that stops the run is not counted. -/
theorem test_tick_parameter :
    nextIs (step { mk [.hlt] [] 1 with config := { tickAtInvocation := false } }) (fun t => t.tc == 0 && t.ic == 1) = true ∧
    nextIs (step { mk [.mov 0 0] [] 1 with config := { tickAtInvocation := false } }) (fun t => t.tc == 3) = true := by decide

/-- With UNBACKED_CELL_FAULTS = false, cell S is there and starts at 0; S + 1 still faults. -/
theorem test_backed_parameter :
    nextIs (step { mk [.mov 2 0] [5, 6] 2 with config := { unbackedCellFaults := false } })
      (fun t => t.status == .running && t.mem == [(1, 6)]) = true ∧
    nextIs (step { mk [.mov 3 0] [5, 6] 2 with config := { unbackedCellFaults := false } })
      (fun t => t.status == faultStatus (.dataAddress 3) 0 1 1) = true := by decide

/-- A small launch: no input, ceiling 3. -/
def launchOf (p : List Instr) (cells : List Int) (size : Int) (q : List Nat := []) (ceiling : Int := 3) : Launch :=
  { program := p.map encode, size := size, data := cells, input := q, ceiling := ceiling }

/-- X1, X2, X3, X5: the launch checks and their order. -/
theorem test_launch_checks :
    launchCheck (launchOf [] [] 0) = some (.nonPositiveMemorySize 0) ∧
    launchCheck (launchOf [] [1, 2, 3] 2) = some (.initialDataTooLong 3) ∧
    launchCheck { launchOf [] [] 1 with program := [{ op := 1, args := [0] }] } = some (.malformedProgram 0) ∧
    launchCheck { launchOf [] [1] 0 with program := [{ op := 1, args := [0] }] } = some (.nonPositiveMemorySize 0) := by decide

/-- E1 and E4, and E5 with ceiling 3. -/
theorem test_runs :
    run (launchOf [.mov 0 1, .hlt] [5, 0] 2) = some (.completed [] 2 4 false) ∧
    run (launchOf [.inp 0, .hlt] [] 1) = some (.completed [] 1 1 true) ∧
    run (launchOf [.jmp 0] [] 1) =
      some (.fatal { cause := .runawayExecution 3, context := { pc := 0, tc := 3, ic := 3 } }) := by decide

/-- U7: the micro-operation no opcode uses. -/
theorem test_writeArg0 :
    perform .writeArg0 { mk [] [2, 5, 9, 0] 4 with acc := 7, args := [0, 1] } =
      .go { mk [] [7, 5, 9, 0] 4 with acc := 7, args := [0, 1] } := by decide

/-- A16, A19: no wrap. -/
theorem test_alu_exact :
    aluResult .floored .add (2 ^ 40) (2 ^ 40) = .ok (2 ^ 41) ∧ aluResult .floored .cmp (2 ^ 63) (-1) = .ok (2 ^ 63 + 1) := by
  decide

/-! ### Witnesses: for every statement with hypotheses, a state and operands that meet them -/

/-- S = 4, cells 0, 3, 72, 200; a program with every kind of slot a witness needs. -/
def w : State := mk [.hlt, .jmp 0] [0, 3, 72, 200] 4 [65, 200]

/-- The same with UNBACKED_CELL_FAULTS = false. -/
def wb : State := { w with config := { unbackedCellFaults := false } }

/-- A state that meets the invariant. -/
theorem w_inv : w.Inv := by
  constructor <;> first | decide | exact ⟨rfl, rfl⟩ | (intro r h; cases h)

theorem witness_StepRunsTheDecodedInstruction :
    w.status = .running ∧ 0 ≤ w.pc ∧ w.program[w.pc.toNat]? = some (encode .hlt) ∧ decode (encode .hlt) = .ok .hlt := by decide

theorem witness_FetchOutsideTheProgramFaults :
    w.status = .running ∧ ({ w with pc := -1 } : State).pc < 0 ∧
    (({ w with pc := 2 } : State).program.length : Int) ≤ ({ w with pc := 2 } : State).pc := by decide

theorem witness_StoppedStatesHaveNoNextStep :
    ({ w with status := .stopped .halted } : State).status = .stopped .halted ∧ w.status = .running := by decide

theorem witness_RunningStatesAlwaysStep : w.Inv ∧ w.status = .running := ⟨w_inv, rfl⟩

theorem witness_HltHalts : w.status = .running ∧ instrAtPc w = some .hlt := by decide

theorem witness_JmpSetsThePc :
    w.status = .running ∧ ((-1 : Int) < 0 ∨ (w.program.length : Int) ≤ -1) ∧ ((2 : Int) < 0 ∨ (w.program.length : Int) ≤ 2) := by
  decide

theorem witness_BranchEqTestsTheAccumulator :
    w.status = .running ∧ w.acc = 0 ∧ ({ w with acc := -1 } : State).acc ≠ 0 ∧
    nextIs (exec (.branchEq (-1)) w) (fun t => t.pc < 0) = true ∧
    nextIs (exec (.branchEq 0) { w with acc := 1, pc := 1 }) (fun t => (w.program.length : Int) ≤ t.pc) = true := by decide

/-- The two-address forms: both cells backed (0 and S-1; S in wb), and each fault. -/
theorem witness_two_cells :
    w.status = .running ∧ wb.status = .running ∧ (Usable w 0 ∧ Usable w 3) ∧ (Usable wb 4 ∧ Usable wb 0) ∧
    ¬ InLatchRange w (-1) ∧ ¬ InLatchRange w 5 ∧ ¬ InLatchRange wb 5 ∧ Unbacked w 4 ∧
    (Usable w 0 ∧ ¬ InLatchRange w 5) ∧ (Usable w 3 ∧ Unbacked w 4) := by decide

theorem witness_MovCopiesOneCell : w.status = .running ∧ Usable w 0 ∧ Usable w 3 := by decide

theorem witness_CmpLeavesTheDifference : w.status = .running ∧ Usable w 3 ∧ Usable w 3 := by decide

theorem witness_AddAccumulatesIntoACell : wb.status = .running ∧ Usable wb 4 ∧ Usable wb 4 := by decide

/-- p = M[0] = 0 and p = M[1] = 3 are backed, p = M[3] = 200 is past the latch, p = 4 is not backed. -/
theorem witness_CmpIndirectIncComparesAndAdvances :
    w.status = .running ∧ (Usable w 0 ∧ Usable w (w.cell 0) ∧ Usable w 3) ∧ (Usable w 1 ∧ Usable w (w.cell 1) ∧ Usable w 0) ∧
    ¬ InLatchRange w (-1) ∧ Unbacked w 4 ∧ (Usable w 3 ∧ ¬ InLatchRange w (w.cell 3)) ∧
    (Usable (mk [] [1] 1) 0 ∧ Unbacked (mk [] [1] 1) ((mk [] [1] 1).cell 0)) ∧
    (Usable w 0 ∧ Usable w (w.cell 0) ∧ ¬ InLatchRange w 5) ∧ (Usable w 0 ∧ Usable w (w.cell 0) ∧ Unbacked w 4) := by decide

/-- Divisor M[1] = 3, and divisor M[0] = 0. -/
theorem witness_RemainderLeavesDividendModDivisor :
    w.status = .running ∧ (Usable w 3 ∧ Usable w 1 ∧ w.cell 1 ≠ 0) ∧ (Usable w 3 ∧ Usable w 0 ∧ w.cell 0 = 0) ∧
    ¬ InLatchRange w (-1) ∧ Unbacked w 4 ∧ (Usable w 0 ∧ ¬ InLatchRange w 5) ∧ (Usable w 0 ∧ Unbacked w 4) := by decide

theorem witness_InReadsOneCharacter :
    w.status = .running ∧ ({ w with queue := [] } : State).queue = [] ∧ w.queue = 65 :: [200] ∧
    (65 ≤ 127 ∧ Usable w 3) ∧ ({ w with queue := [128] } : State).queue = 128 :: [] ∧ 127 < 128 ∧
    (65 ≤ 127 ∧ ¬ InLatchRange w 5) ∧ (65 ≤ 127 ∧ Unbacked w 4) := by decide

theorem witness_OutAppendsANumber :
    w.status = .running ∧ Usable w 0 ∧ Usable w 3 ∧ ¬ InLatchRange w 5 ∧ Unbacked w 4 := by decide

/-- Codes 0 and 72 are in range, 200 is not; 127 and 128 are the boundary. -/
theorem witness_OutCharAppendsACharacter :
    w.status = .running ∧ (Usable w 0 ∧ 0 ≤ w.cell 0 ∧ w.cell 0 ≤ 127) ∧
    (Usable (mk [] [127, 128, -1] 3) 0 ∧ 0 ≤ (mk [] [127, 128, -1] 3).cell 0 ∧ (mk [] [127, 128, -1] 3).cell 0 ≤ 127) ∧
    (Usable (mk [] [127, 128, -1] 3) 1 ∧ ¬ (0 ≤ (mk [] [127, 128, -1] 3).cell 1 ∧ (mk [] [127, 128, -1] 3).cell 1 ≤ 127)) ∧
    (Usable (mk [] [127, 128, -1] 3) 2 ∧ ¬ (0 ≤ (mk [] [127, 128, -1] 3).cell 2 ∧ (mk [] [127, 128, -1] 3).cell 2 ≤ 127)) ∧
    ¬ InLatchRange w (-1) ∧ Unbacked w 4 := by decide

theorem witness_OutIndirectAppendsThePointee :
    w.status = .running ∧ (Usable w 0 ∧ Usable w (w.cell 0) ∧ 0 ≤ w.cell (w.cell 0) ∧ w.cell (w.cell 0) ≤ 127) ∧
    (Usable w 1 ∧ Usable w (w.cell 1) ∧ ¬ (0 ≤ w.cell (w.cell 1) ∧ w.cell (w.cell 1) ≤ 127)) ∧
    ¬ InLatchRange w 5 ∧ Unbacked w 4 ∧ (Usable w 2 ∧ ¬ InLatchRange w (w.cell 2)) ∧
    (Usable (mk [] [1] 1) 0 ∧ Unbacked (mk [] [1] 1) ((mk [] [1] 1).cell 0)) := by decide

theorem witness_ControlInstructionsFrame :
    w.status = .running ∧ (∀ i ∈ [Instr.hlt, .jmp 5, .branchEq 5],
      i.opcode ∈ [Opcode.hlt, .jmp, .branchEq] ∧ nextIs (exec i w) (fun _ => true) = true) := by decide

theorem witness_CompareAndRemainderFrame :
    w.status = .running ∧ (∀ i ∈ [Instr.cmp 0 1, .cmp 9 1, .remainder 0 1, .remainder 1 0],
      i.opcode ∈ [Opcode.cmp, .remainder] ∧ nextIs (exec i w) (fun _ => true) = true) := by decide

theorem witness_OutputInstructionsFrame :
    w.status = .running ∧ (∀ i ∈ [Instr.out 0, .outChar 2, .outChar 3, .outIndirect 0, .outIndirect 3],
      i.opcode ∈ [Opcode.out, .outChar, .outIndirect] ∧ nextIs (exec i w) (fun _ => true) = true) := by decide

theorem witness_MovAndAddFrame :
    w.status = .running ∧ (∀ i ∈ [Instr.mov 0 1, .add 0 1], (i = .mov 0 1 ∨ i = .add 0 1) ∧
      nextIs (exec i w) (fun t => t.status == .running) = true) ∧
    nextIs (exec (.mov 0 5) w) (fun t => t.status != .running) = true := by decide

theorem witness_CmpIndirectIncFrame :
    w.status = .running ∧ nextIs (exec (.cmpIndirectInc 1 0) w) (fun t => t.status == .running) = true ∧
    nextIs (exec (.cmpIndirectInc 3 0) w) (fun t => t.status != .running) = true := by decide

theorem witness_InFrame :
    w.status = .running ∧ nextIs (exec (.inp 3) w) (fun t => t.status == .running) = true ∧
    nextIs (exec (.inp 5) w) (fun t => t.status != .running) = true ∧
    nextIs (exec (.inp 3) { w with queue := [] }) (fun t => t.status == .stopped .inputExhausted) = true := by decide

/-- Both ends of the range and the values next to them, through each selector. -/
theorem witness_AddressLatchAcceptsZeroToSizeInclusive :
    (∀ a ∈ [(-1 : Int), 0, 4, 5],
      ({ w with args := [a, 0] } : State).args[0]? = some a ∧ ({ w with args := [0, a] } : State).args[1]? = some a ∧
      ({ w with acc := a } : State).acc = a) ∧
    (0 ≤ (0 : Int) ∧ (0 : Int) ≤ (w.size : Int)) ∧ (0 ≤ (4 : Int) ∧ (4 : Int) ≤ (w.size : Int)) ∧
    ((-1 : Int) < 0 ∨ (w.size : Int) < -1) ∧ ((5 : Int) < 0 ∨ (w.size : Int) < 5) := by decide

theorem witness_MemoryAccessActsOnBackedCells :
    w.mem.wf = true ∧ wb.mem.wf = true ∧ Usable w 0 ∧ (Usable w 3 ∧ (3 : Int) ≠ 0) ∧ Usable wb 4 ∧ Unbacked w 4 := by decide

theorem witness_CanonicalMemoriesWithEqualReadsAreEqual :
    w.mem.wf = true ∧ (Memory.write w.mem 0 0).wf = true ∧ ∀ a : Nat, w.mem.read a = (Memory.write w.mem 0 0).read a :=
  ⟨by decide, by decide, fun a => congrArg (Memory.read · a) (by decide : w.mem = Memory.write w.mem 0 0)⟩

theorem witness_InputLatchPopsThenChecks :
    ({ w with queue := [] } : State).queue = [] ∧ (({ w with queue := [127] } : State).queue = 127 :: [] ∧ 127 ≤ 127) ∧
    (({ w with queue := [128] } : State).queue = 128 :: [] ∧ 127 < 128) := by decide

theorem witness_RemainderIsRightModLeft :
    (3 : Int) ≠ 0 ∧ (-3 : Int) ≠ 0 ∧ 0 < (3 : Int) ∧ (-3 : Int) < 0 ∧ 0 ≤ (7 : Int) ∧ (-7 : Int) ≤ 0 ∧ 0 ≤ (0 : Int) ∧
    leftOperand .memory w = .ok 0 ∧ leftOperand .backRegister w = .ok 0 := by decide

theorem witness_WriteArg0StoresTheAccumulator :
    ({ w with args := [3] } : State).args[0]? = some 3 ∧ Usable { w with args := [3] } 3 ∧
    ({ w with args := [5] } : State).args[0]? = some 5 ∧ ¬ InLatchRange { w with args := [5] } 5 ∧
    ({ w with args := [4] } : State).args[0]? = some 4 ∧ Unbacked { w with args := [4] } 4 := by decide

theorem witness_AluAppliesToTheBackRegister :
    (AluOp.remainder = .remainder ∧ w.br = 0) ∧ ¬ (AluOp.add = .remainder ∧ w.br = 0) ∧
    ¬ (AluOp.remainder = .remainder ∧ ({ w with br := 2 } : State).br = 0) := by decide

theorem witness_EveryStepCountsOneInstruction :
    nextIs (step w) (fun _ => true) = true ∧
    nextIs (step { w with pc := 2 }) (fun t => t.status == faultStatus (.programCounterOutOfRange 2) 2 0 1) = true := by decide

/-- One instruction of every opcode that completes. -/
theorem witness_TicksPerCompletedInstruction :
    w.status = .running ∧ w.config.tickAtInvocation = true ∧
    (∀ i ∈ [Instr.hlt, .mov 0 1, .cmp 0 1, .cmpIndirectInc 0 1, .remainder 0 1, .add 0 1, .inp 0, .out 0, .outChar 0,
      .outIndirect 0, .jmp 0, .branchEq 0], nextIs (exec i w) (fun t => decide (Completed t)) = true) := by decide

/-- A completing run of two instructions. -/
theorem witness_TickCounterIsTheSumOfSequenceLengths :
    (∃ s u, s.config.tickAtInvocation = true ∧ CompletingRun [.jmp 1, .hlt] s u) ∧
    (w.status = .running ∧ w.config.tickAtInvocation = true ∧ instrAtPc (mk [.mov 0 5] [] 4) = some (.mov 0 5) ∧
      nextIs (step (mk [.mov 0 5] [] 4)) (fun t => !decide (Completed t)) = true) ∧
    (w.status = .running ∧ ({ w with pc := -1 } : State).pc < 0 ∧
      nextIs (step { w with pc := -1 }) (fun _ => true) = true) := by
  refine ⟨⟨mk [.jmp 1, .hlt] [] 1, ?_⟩, by decide, by decide⟩
  exact ⟨_, rfl, .step rfl rfl rfl (.inl rfl) (.step rfl rfl rfl (.inr rfl) (.done _))⟩

theorem witness_TickParameterChangesOnlyTheStoppingTick :
    w.status = .running ∧
    (∀ b ∈ [true, false], nextIs (exec (.mov 0 1) { w with config := { w.config with tickAtInvocation := b } })
      (fun t => t.status == .running) = true) ∧
    (∀ b ∈ [true, false], nextIs (exec (.mov 0 5) { w with config := { w.config with tickAtInvocation := b } })
      (fun t => t.status == faultStatus (.dataAddress 5) 0 (if b then 2 else 1) 0) = true) ∧
    (∀ b ∈ [true, false], nextIs (exec .hlt { w with config := { w.config with tickAtInvocation := b } })
      (fun t => t.status == .stopped .halted) = true) := by decide

theorem witness_FaultsRecordTheirContext :
    nextIs (step (mk [.mov 0 5] [] 4)) (fun t => t.status == faultStatus (.dataAddress 5) 0 2 1) = true := by decide

theorem witness_EachStopComesFromItsOpcodes :
    w.status = .running ∧ nextIs (exec .hlt w) (fun t => t.status == .stopped .halted) = true ∧
    nextIs (exec (.inp 0) { w with queue := [] }) (fun t => t.status == .stopped .inputExhausted) = true ∧
    nextIs (exec (.out 5) w) (fun t => t.status == faultStatus (.dataAddress 5) 0 1 0) = true ∧
    nextIs (exec (.remainder 1 0) w) (fun t => t.status == faultStatus (.divideByZero 3) 0 2 0) = true ∧
    nextIs (exec (.outChar 3) w) (fun t => t.status == faultStatus (.outputCodeOutOfRange 200) 0 2 0) = true ∧
    nextIs (exec (.inp 0) { w with queue := [200] }) (fun t => t.status == faultStatus (.inputCode 200) 0 1 0) = true := by
  decide

theorem witness_UnbackedCellFaultsOnlyAtSize :
    w.status = .running ∧ nextIs (exec (.out 4) w) (fun t => t.status == faultStatus (.unbackedCell 4) 0 1 0) = true := by decide

theorem witness_AccumulatorAfterEachInstruction :
    w.status = .running ∧ nextIs (exec (.remainder 2 1) w) (fun t => decide (Completed t)) = true ∧
    nextIs (exec .hlt w) (fun t => decide (Completed t)) = true := by decide

theorem witness_OtherInstructionsForgetTheAccumulator :
    w.status = .running ∧ (Instr.mov 0 1).opcode ∉ [Opcode.hlt, .jmp, .branchEq] ∧
    nextIs (exec (.mov 0 1) w) (fun t => t.status == .running) = true := by decide

/-- Two different states that agree on what can be observed. -/
theorem witness_HiddenRegistersAreNeverObserved :
    SameObservable w { w with br := 1, alu := 2, da := 3, ir := some .jmp, args := [9], upc := 1 } ∧
    ∃ t, step w = .next t :=
  ⟨by constructor <;> rfl, (of_nextIs (check := fun _ => true) (by decide)).imp fun _ h => h.1⟩

theorem witness_ProgramAndParametersAreImmutable :
    perform .outNum w = .go { w with output := [.num 0] } ∧
    perform .outChar { w with acc := 128 } = .raised (frozen (.outputCodeOutOfRange 128) { w with acc := 128 }) ∧
    ∃ t, step w = .next t :=
  ⟨by decide, by decide, (of_nextIs (check := fun _ => true) (by decide)).imp fun _ h => h.1⟩

theorem witness_StreamsMoveInProgramOrder :
    (w.status = .running ∧ (Instr.inp 0).opcode = .inp ∧ nextIs (exec (.inp 0) w) (fun _ => true) = true) ∧
    ((Instr.mov 0 1).opcode ≠ .inp ∧ (Instr.mov 0 1).opcode ∉ [Opcode.out, .outChar, .outIndirect] ∧
      nextIs (exec (.mov 0 1) w) (fun _ => true) = true) ∧
    ((Instr.outChar 2).opcode ∈ [Opcode.out, .outChar, .outIndirect] ∧
      nextIs (exec (.outChar 2) w) (fun t => t.status == .running) = true) ∧
    ∃ t, Reaches w t ∧ t.status ≠ .running :=
  ⟨by decide, by decide, by decide,
    (of_nextIs (check := fun t => t.status != .running) (o := step w) (by decide)).imp
      fun _ h => ⟨.tail (.refl _) h.1, by simpa using h.2⟩⟩

theorem witness_StepKeepsTheInvariant : w.Inv ∧ ∃ t, step w = .next t :=
  ⟨w_inv, (of_nextIs (check := fun _ => true) (by decide)).imp fun _ h => h.1⟩

theorem witness_LaunchEstablishesTheInvariant :
    launch (launchOf [.hlt] [7, 0] 2) = .ok (bootState (launchOf [.hlt] [7, 0] 2)) := rfl

theorem witness_LaunchedStateIsTheResetState :
    launch (launchOf [.hlt] [7] 2 [65]) = .ok (bootState (launchOf [.hlt] [7] 2 [65])) := rfl

theorem witness_FirstStepFetchesSlotZero :
    launch (launchOf [.hlt] [] 1) = .ok (bootState (launchOf [.hlt] [] 1)) ∧
    (launchOf [.hlt] [] 1).program = encode .hlt :: [] ∧
    launch (launchOf [] [] 1) = .ok (bootState (launchOf [] [] 1)) ∧ (launchOf [] [] 1).program = [] := ⟨rfl, rfl, rfl, rfl⟩

theorem witness_FinalStateIsReachedBySteps :
    launch (launchOf [.jmp 0] [] 1 [] 2) = .ok (bootState (launchOf [.jmp 0] [] 1 [] 2)) := rfl

theorem witness_LaunchChecksInOrder :
    (launchOf [] [] 0).size ≤ 0 ∧ (0 < (launchOf [] [1, 2] 1).size ∧ (launchOf [] [1, 2] 1).size < ([1, 2].length : Int)) ∧
    (0 < (launchOf [.hlt] [1] 1).size ∧ (([1] : List Int).length : Int) ≤ 1 ∧
      ([encode .hlt, { op := 12, args := [] }] : List Record)[1]? = some { op := 12, args := [] } ∧
      Record.wf { op := 12, args := [] } = false ∧ (encode .hlt).wf = true) ∧
    (∀ r ∈ (launchOf [.hlt] [1] 1).program, r.wf = true) := by decide

theorem witness_EveryRunEndsWithinTheCeiling :
    launch (launchOf [.jmp 0] [] 1 [] 2) = .ok (bootState (launchOf [.jmp 0] [] 1 [] 2)) ∧
    (finalState (launchOf [.jmp 0] [] 1 [] 2) (bootState (launchOf [.jmp 0] [] 1 [] 2))).status =
      faultStatus (.runawayExecution 2) 0 2 2 ∧
    launch (launchOf [.hlt] [] 1 [] 0) = .ok (bootState (launchOf [.hlt] [] 1 [] 0)) ∧ (0 : Int) ≤ 0 :=
  ⟨rfl, by decide, rfl, le_rfl⟩

theorem witness_RunReportsItsResult :
    launch (launchOf [] [] 0) = .error { cause := .nonPositiveMemorySize 0, context := { pc := 0, tc := 0, ic := 0 } } ∧
    (finalState (launchOf [.hlt] [] 1) (bootState (launchOf [.hlt] [] 1))).status = .stopped .halted ∧
    (finalState (launchOf [.inp 0] [] 1) (bootState (launchOf [.inp 0] [] 1))).status = .stopped .inputExhausted ∧
    (finalState (launchOf [.out 1] [] 1) (bootState (launchOf [.out 1] [] 1))).status = faultStatus (.unbackedCell 1) 0 1 1 := by
  refine ⟨rfl, by decide, by decide, by decide⟩

theorem witness_NumbersRenderAsDecimalStrings :
    (-30 : Int) ≠ 0 ∧ Token.render (.num (-30)) = ['-', '3', '0'] ∧ Token.render (.num 0) = ['0'] := by decide

end Sys2Proof.Tests
end

section
/-!
SUPPORT. What every step keeps of the state (10_state): the launch parameters, and the machine's invariant. Inside an
instruction the invariant is InRun; a raise, which nothing follows, leaves it Frozen (41_microops R101).
-/

namespace Sys2Proof.Machine

/-! ### Going on and stopping, told apart -/

/-- What an operation leaves: a state with `go` where the run goes on, a state with `stop` where it raised. -/
def Flow.Yields (f : Flow) (go stop : State → Prop) : Prop :=
  match f with
  | .go s => go s
  | .raised s => stop s
  | .noArgument _ => True

/-- First then next: what follows starts where the first went on, and a raise is final. -/
theorem Flow.yields_andThen {f : Flow} {k : State → Flow} {mid go stop : State → Prop} (hf : f.Yields mid stop)
    (hk : ∀ s, mid s → (k s).Yields go stop) : (f.andThen k).Yields go stop := by
  cases f with
  | go s => exact hk s hf
  | raised s => exact hf
  | noArgument i => trivial

/-- A next state is one the flow went on to or one it stopped in. -/
theorem Flow.yields_of_outcome {f : Flow} {go stop : State → Prop} {t : State} (hf : f.Yields go stop)
    (h : f.outcome = .next t) : go t ∨ stop t := by
  cases f with
  | go s => cases h; exact .inl hf
  | raised s => cases h; exact .inr hf
  | noArgument i => simp at h

theorem withArg_yields {i : Nat} {s : State} {k : Int → Flow} {go stop : State → Prop}
    (h : ∀ a, (k a).Yields go stop) : (withArg i k s).Yields go stop := by
  unfold withArg
  cases s.args[i]? with
  | none => trivial
  | some a => exact h a

/-! ### The part of the invariant that micro-operations write -/

/-- The clauses of State.Inv on DA, M and O (10_state R17, R18, R25), the fields a micro-operation writes. -/
structure State.DataFits (s : State) : Prop where
  da_nonneg : 0 ≤ s.da
  da_le_size : s.da ≤ (s.size : Int)
  mem_wf : s.mem.wf = true
  mem_below : s.mem.below s.cellCount = true
  output_wf : ∀ t ∈ s.output, t.wf = true

/-- Inside an instruction: the data fits, and no fault has been raised. -/
structure State.InRun (s : State) : Prop extends s.DataFits where
  not_faulted : ¬ s.faulted

/-- At the end of a step: the data fits, and a fault holds the context of the state it froze (60_exceptions R131). -/
structure State.Frozen (s : State) : Prop extends s.DataFits where
  fault_context : ∀ r, s.status = .stopped (.fault r) → r.context = s.context

theorem State.InRun.frozen {s : State} (h : s.InRun) : s.Frozen :=
  { h with fault_context := fun r hr => absurd ⟨r, hr⟩ h.not_faulted }

/-- The fault a raise records holds the context of the state it freezes (60_exceptions R131). -/
theorem State.stopWith_fault_context (s : State) (c : StopCause) (r : FaultRecord)
    (h : (s.stopWith c).status = .stopped (.fault r)) : r.context = (s.stopWith c).context := by
  cases c with
  | inputExhausted => cases h
  | fault c =>
    cases h
    rfl

theorem State.InRun.stopWith {s : State} (h : s.InRun) (c : StopCause) : (s.stopWith c).Frozen :=
  { h with fault_context := s.stopWith_fault_context c }

/-- Registers and counters of which the invariant says nothing may take any value. -/
theorem State.InRun.registers {s : State} (h : s.InRun) (acc br alu pc : Int) (queue : List Nat) (upc tc ic : Nat) :
    State.InRun { s with
      acc := acc, br := br, alu := alu, pc := pc, queue := queue, upc := upc, tc := tc, ic := ic } := { h with }

theorem State.InRun.latchInstr {s : State} (h : s.InRun) (o : Opcode) (args : List Int) :
    (s.latchInstr o args).InRun := { h with }

/-- The latch admits 0..S alone (40_datapath_alu R64). -/
theorem State.InRun.latchDa {s : State} {a : Int} (h : s.InRun) (hl : inLatchRange s.size a = true) :
    State.InRun { s with da := a } := by
  rw [inLatchRange, decide_eq_true_eq] at hl
  exact { h with da_nonneg := hl.1, da_le_size := hl.2 }

/-- A store to a backed cell keeps the canonical form and the bound (20_memory R36). -/
theorem State.InRun.storeCell {s : State} {a : Int} (h : s.InRun) (hb : s.backed a = true) (v : Int) :
    State.InRun { s with mem := s.storeCell a v } := by
  have ha : 0 ≤ a ∧ a < (s.cellCount : Int) := of_decide_eq_true hb
  exact { h with
    mem_wf := Memory.wf_write _ v h.mem_wf
    mem_below := Memory.below_write v ((Int.toNat_lt ha.1).2 ha.2) h.mem_below }

theorem State.InRun.emit {s : State} {x : Token} (h : s.InRun) (hx : x.wf = true) :
    State.InRun { s with output := s.output ++ [x] } :=
  { h with
    output_wf := fun t ht => by
      rcases List.mem_append.1 ht with ht | ht
      · exact h.output_wf t ht
      · rwa [List.mem_singleton.1 ht] }

theorem State.InRun.halt {s : State} (h : s.InRun) : State.InRun { s with status := .stopped .halted } :=
  { h with not_faulted := fun ⟨r, hr⟩ => by cases hr }

/-! ### From the micro-operations to the instruction -/

/-- An operation that keeps the invariant where it goes on, and freezes it where it raises. -/
abbrev Flow.KeepsFit (f : Flow) : Prop := f.Yields State.InRun State.Frozen

/-- Both faults of an access freeze a state that fits, so only what follows at a backed cell is left to show. -/
theorem atCell_keepsFit {a : Int} {s : State} {k : State → Flow} (h : s.InRun)
    (hk : s.backed a = true → State.InRun { s with da := a } → (k { s with da := a }).KeepsFit) :
    (atCell a s k).KeepsFit := by
  by_cases hl : inLatchRange s.size a = true
  · by_cases hb : s.backed a = true
    · rw [atCell_backed k hb]
      exact hk hb (h.latchDa hl)
    · rw [atCell_unbacked k hb hl]
      exact (h.latchDa hl).stopWith _
  · rw [atCell_outside k hl]
    exact h.stopWith _

theorem withArg_atCell_keepsFit {i : Nat} {s : State} {k : Int → State → Flow} (h : s.InRun)
    (hk : ∀ a, s.backed a = true → State.InRun { s with da := a } → (k a { s with da := a }).KeepsFit) :
    (withArg i (fun a => atCell a s (k a)) s).KeepsFit :=
  withArg_yields fun a => atCell_keepsFit h (hk a)

/-- Reading argument i and storing a value in the cell it names keeps the invariant (41_microops R88 to R90). -/
theorem storeAtArg_keepsFit {i : Nat} {s : State} (h : s.InRun) (v : Int) :
    (withArg i (fun a => atCell a s fun t => .go { t with mem := s.storeCell a v }) s).KeepsFit :=
  withArg_atCell_keepsFit h fun _ hb hu => hu.storeCell hb v

/-- Every micro-operation keeps the invariant (41_microops R85 to R100). -/
theorem perform_keepsFit (op : MicroOp) {s : State} (h : s.InRun) : (perform op s).KeepsFit := by
  cases op
  case readArg0 => exact perform_readArg0 s ▸ withArg_atCell_keepsFit h fun _ _ hu => hu.registers ..
  case writeFromInput =>
    rw [perform_writeFromInput]
    cases s.queue with
    | nil => exact h.stopWith _
    | cons c rest =>
      have hpop (acc : Int) : State.InRun { s with queue := rest, acc := acc } := h.registers ..
      cases hc : isCharCode (c : Int) with
      | false =>
        simp only [hc]
        exact (hpop s.acc).stopWith _
      | true =>
        simp only [hc, if_true]
        exact storeAtArg_keepsFit (hpop c) c
  case readIndirect => exact perform_readIndirect s ▸ atCell_keepsFit h fun _ hu => hu.registers ..
  case writeArg1 => exact perform_writeArg1 s ▸ storeAtArg_keepsFit h s.acc
  case writeArg0 => exact perform_writeArg0 s ▸ storeAtArg_keepsFit h s.acc
  case writeBrArg0 => exact perform_writeBrArg0 s ▸ storeAtArg_keepsFit h s.br
  case aluCmp => exact perform_aluCmp s ▸ withArg_atCell_keepsFit h fun _ _ hu => hu.registers ..
  case aluRem =>
    refine perform_aluRem s ▸ withArg_atCell_keepsFit h fun a _ hu => ?_
    by_cases hz : s.cell a = 0
    · rw [if_pos hz]
      exact hu.stopWith _
    · rw [if_neg hz]
      exact hu.registers ..
  case aluAdd => exact perform_aluAdd s ▸ withArg_atCell_keepsFit h fun _ _ hu => hu.registers ..
  case incAtArg0 => exact perform_incAtArg0 s ▸ withArg_atCell_keepsFit h fun _ _ hu => hu.registers ..
  case outNum => exact perform_outNum s ▸ h.emit rfl
  case outChar =>
    rw [perform_outChar]
    cases hc : isCharCode s.acc with
    | false => exact h.stopWith _
    | true => exact h.emit hc
  case nextPc => exact perform_nextPc s ▸ h.registers ..
  case jump => exact perform_jump s ▸ withArg_yields fun _ => h.registers ..
  case halt => exact perform_halt s ▸ h.halt
  case branchIfZero =>
    rw [perform_branchIfZero]
    by_cases hz : s.acc = 0
    · rw [if_pos hz]
      exact withArg_yields fun _ => h.registers ..
    · rw [if_neg hz]
      exact h.registers ..

/-- The ticks and the move of UPC around a micro-operation are fields that InRun does not constrain. -/
theorem invoke_keepsFit (op : MicroOp) {s : State} (h : s.InRun) : (invoke op s).KeepsFit :=
  Flow.yields_andThen (perform_keepsFit op (s := s.tickBefore) (h.registers ..)) fun _ ht => ht.registers ..

theorem runSequence_keepsFit (ops : List MicroOp) {s : State} (h : s.InRun) : (runSequence ops s).KeepsFit := by
  induction ops generalizing s with
  | nil => exact h
  | cons op ops ih => exact Flow.yields_andThen (invoke_keepsFit op h) fun _ ht => ih ht

/-- From a state in a run, an instruction leaves data that fits and a fault only with its context. -/
theorem exec_frozen {i : Instr} {s t : State} (hs : s.InRun) (h : exec i s = .next t) : t.Frozen := by
  rw [exec_eq] at h
  exact (Flow.yields_of_outcome (runSequence_keepsFit _ (hs.latchInstr ..)) h).elim State.InRun.frozen id

/-! ### The position in the current sequence -/

/-- t has the latched instruction of s, at most n positions further on (10_state R20, R21). -/
structure SameInstrWithin (n : Nat) (s t : State) : Prop where
  ir : t.ir = s.ir
  args : t.args = s.args
  upc : t.upc ≤ s.upc + n

theorem SameInstrWithin.mono {m n : Nat} {s t : State} (h : SameInstrWithin m s t) (hmn : m ≤ n) :
    SameInstrWithin n s t := { h with upc := h.upc.trans (by omega) }

theorem SameInstrWithin.trans {m n : Nat} {s t u : State} (h : SameInstrWithin m s t) (h' : SameInstrWithin n t u) :
    SameInstrWithin (n + m) s u :=
  ⟨h'.ir.trans h.ir, h'.args.trans h.args, by have := h.upc; have := h'.upc; omega⟩

/-- Where it goes on an invocation moves UPC one position on, and where it raises it leaves it
(42_control_unit R104). -/
theorem invoke_sameInstr (op : MicroOp) (s : State) :
    (invoke op s).Yields (SameInstrWithin 1 s) (SameInstrWithin 0 s) := by
  have hc := perform_sameControl op s.tickBefore
  unfold invoke
  cases hp : perform op s.tickBefore with
  | noArgument i => trivial
  | go t =>
    rw [hp] at hc
    exact ⟨hc.ir, hc.args, Nat.succ_le_succ hc.upc.le⟩
  | raised t =>
    rw [hp] at hc
    exact ⟨hc.ir, hc.args, hc.upc.le⟩

/-- What an operation leaves has every property that follows from the one it has. -/
theorem Flow.Leaves.imp {f : Flow} {P Q : State → Prop} (hf : f.Leaves P) (h : ∀ s, P s → Q s) : f.Leaves Q := by
  cases f with
  | go s => exact h s hf
  | raised s => exact h s hf
  | noArgument i => trivial

/-- A sequence keeps the latched instruction and moves UPC by its length at most (42_control_unit R104, R107). -/
theorem runSequence_sameInstr (ops : List MicroOp) (s : State) :
    (runSequence ops s).Leaves (SameInstrWithin ops.length s) := by
  induction ops generalizing s with
  | nil => exact ⟨rfl, rfl, le_rfl⟩
  | cons op ops ih =>
    have hi := invoke_sameInstr op s
    unfold runSequence
    cases hf : invoke op s with
    | noArgument i => trivial
    | raised t =>
      rw [hf] at hi
      exact hi.mono (Nat.zero_le _)
    | go t =>
      rw [hf] at hi
      exact (ih t).imp fun _ hu => hi.trans hu

/-- The arguments of an instruction are as many as its format has (30_encoding R53). -/
theorem instr_args_length (i : Instr) : i.args.length = i.opcode.arity := by cases i <;> rfl

/-- After an instruction IR, ARGS and UPC fit together (10_state R20, R21). -/
theorem exec_currentFits {i : Instr} {s t : State} (h : exec i s = .next t) : t.currentFits := by
  rw [exec_eq] at h
  obtain ⟨hir, hargs, hupc⟩ := Flow.leaves_of_outcome (runSequence_sameInstr _ _) h
  have hir : t.ir = some i.opcode := hir
  have hargs : t.args = i.args := hargs
  unfold State.currentFits
  simpa [hir, hargs, instr_args_length] using hupc

/-! ### The step -/

/-- An instruction keeps the invariant of a running state. -/
theorem exec_inv {i : Instr} {s t : State} (hs : s.Inv) (hrun : s.status = .running) (h : exec i s = .next t) :
    t.Inv := by
  obtain ⟨hprogram, hsize, -, -⟩ := exec_sameParameters h
  have hin : s.InRun := { hs with not_faulted := fun ⟨r, hr⟩ => by simp [hrun] at hr }
  exact { exec_frozen hin h with
    size_pos := hsize ▸ hs.size_pos
    program_wf := hprogram ▸ hs.program_wf
    current_fits := exec_currentFits h }

theorem State.Inv.countInstruction {s : State} (h : s.Inv) (hrun : s.status = .running) : s.countInstruction.Inv :=
  { h with fault_context := fun r hr => by simp [hrun] at hr }

theorem State.Inv.stopWith {s : State} (h : s.Inv) (c : StopCause) : (s.stopWith c).Inv :=
  { h with fault_context := s.stopWith_fault_context c }

/-- Settles O52: a fetch fault freezes a state that meets the invariant, and an instruction keeps it by the
invariant InRun inside its microcode sequence. -/
theorem stepKeepsTheInvariant : Obligations.StepKeepsTheInvariant := by
  intro s t hs h
  obtain ⟨hrun, ⟨-, rfl⟩ | ⟨r, i, -, -, hexec⟩⟩ := step_cases h
  · exact (hs.countInstruction hrun).stopWith _
  · exact exec_inv (hs.countInstruction hrun) hrun hexec

/-- Settles O48: the launch parameters are of the part that no micro-operation writes, and a step adds only the
count of IC and the stop of a fetch outside the program. -/
theorem programAndParametersAreImmutable : Obligations.ProgramAndParametersAreImmutable := by
  refine ⟨fun op s t h => ?_, fun s t h => ?_⟩
  · have hc : SameControl s t := by
      have hp := perform_sameControl op s
      rcases h with h | h <;> rwa [h] at hp
    exact ⟨hc.program, hc.size, hc.config⟩
  · obtain ⟨-, ⟨-, rfl⟩ | ⟨r, i, -, -, hexec⟩⟩ := step_cases h
    · exact ⟨rfl, rfl, rfl⟩
    · obtain ⟨hprogram, hsize, hconfig, -⟩ := exec_sameParameters hexec
      exact ⟨hprogram, hsize, hconfig⟩

/-- Settles O55: each register by the definition of State.reset. -/
theorem resetRegisterValues : Obligations.ResetRegisterValues :=
  ⟨rfl, rfl, rfl, rfl, rfl, rfl, rfl, rfl, rfl, rfl, rfl, rfl⟩

end Sys2Proof.Machine
end

section
/-!
SUPPORT. Data memory as the primitives see it (20_memory R33 to R36): a memory in canonical form is determined by what
its cells read, and MemRead and MemWrite act on the backed cells alone.
-/

namespace Sys2Proof.Machine

/-! ### What the cells of a canonical memory say of its entries -/

theorem Memory.wfAbove_cons {lo k : Nat} {v : Int} {m : Memory} :
    Memory.wfAbove lo ((k, v) :: m) = true ↔ lo ≤ k ∧ v ≠ Memory.unlisted ∧ Memory.wfAbove (k + 1) m = true := by
  simp [Memory.wfAbove, and_assoc]

@[simp] theorem Memory.read_cons_self (k : Nat) (v : Int) (m : Memory) : Memory.read ((k, v) :: m) k = v := if_pos rfl

/-- Past its first entry a canonical memory holds nothing at that entry's cell, and every other cell reads as before. -/
theorem Memory.read_tail {k : Nat} {m : Memory} (v : Int) (hm : Memory.wfAbove (k + 1) m = true) (a : Nat) :
    Memory.read m a = if k = a then Memory.unlisted else Memory.read ((k, v) :: m) a := by
  by_cases ha : k = a
  · rw [if_pos ha, Memory.read_of_lt (by omega) hm]
  · rw [if_neg ha, Memory.read_cons, if_neg ha]

/-- The first entry of a canonical memory lies at the lowest cell that does not hold the unlisted value. -/
theorem Memory.first_le_of_read_ne {lo k a : Nat} {v : Int} {m : Memory}
    (hm : Memory.wfAbove lo ((k, v) :: m) = true) (h : Memory.read ((k, v) :: m) a ≠ Memory.unlisted) : k ≤ a := by
  obtain ⟨-, hv, hrest⟩ := Memory.wfAbove_cons.1 hm
  by_contra hlt
  exact h (Memory.read_of_lt (Nat.lt_of_not_le hlt) (Memory.wfAbove_cons.2 ⟨le_rfl, hv, hrest⟩))

/-- Canonical memories that read alike are equal: their first entries lie at the same lowest cell with the same
content, and what follows reads alike again. -/
theorem Memory.eq_of_read_eq {lo lo' : Nat} {m n : Memory} (hm : Memory.wfAbove lo m = true)
    (hn : Memory.wfAbove lo' n = true) (h : ∀ a, Memory.read m a = Memory.read n a) : m = n := by
  induction m generalizing lo lo' n with
  | nil =>
    cases n with
    | nil => rfl
    | cons e n =>
      obtain ⟨k, v⟩ := e
      obtain ⟨-, hv, -⟩ := Memory.wfAbove_cons.1 hn
      exact absurd ((h k).trans (Memory.read_cons_self k v n)).symm hv
  | cons e m ih =>
    obtain ⟨k, v⟩ := e
    obtain ⟨-, hv, hm'⟩ := Memory.wfAbove_cons.1 hm
    cases n with
    | nil => exact absurd ((Memory.read_cons_self k v m).symm.trans (h k)) hv
    | cons e n =>
      obtain ⟨k', v'⟩ := e
      obtain ⟨-, hv', hn'⟩ := Memory.wfAbove_cons.1 hn
      have hkk : k = k' := le_antisymm
        (Memory.first_le_of_read_ne hm (by rwa [h k', Memory.read_cons_self]))
        (Memory.first_le_of_read_ne hn (by rwa [← h k, Memory.read_cons_self]))
      subst hkk
      have hvv : v = v' := by simpa using h k
      subst hvv
      have htail : m = n := ih hm' hn' fun a => by rw [Memory.read_tail v hm', Memory.read_tail v hn', h a]
      rw [htail]

/-- Settles O30: both canonical forms lie above the bound 0. -/
theorem canonicalMemoriesWithEqualReadsAreEqual : Obligations.CanonicalMemoriesWithEqualReadsAreEqual :=
  fun _ _ hm hn h => Memory.eq_of_read_eq hm hn h

/-! ### MemRead and MemWrite -/

theorem memRead_backed {s : State} {a : Int} (h : s.backed a = true) : memRead s a = .ok (s.cell a) := if_pos h

theorem memRead_unbacked {s : State} {a : Int} (h : ¬ s.backed a = true) : memRead s a = .error (.unbackedCell a) :=
  if_neg h

theorem memWrite_backed {s : State} {a : Int} (v : Int) (h : s.backed a = true) :
    memWrite s a v = .go { s with mem := s.storeCell a v } := if_pos h

theorem memWrite_unbacked {s : State} {a : Int} (v : Int) (h : ¬ s.backed a = true) :
    memWrite s a v = .raised (s.stopWith (.fault (.unbackedCell a))) := if_neg h

/-- Which cells are backed does not depend on what memory holds. -/
theorem State.backed_withMem (s : State) (m : Memory) (a : Int) :
    State.backed { s with mem := m } a = s.backed a := rfl

/-- Cell S is not backed where an access at S faults. -/
theorem State.not_backed_of_unbacked {s : State} {a : Int} (h : Claims.Unbacked s a) : ¬ s.backed a = true := by
  obtain ⟨rfl, hfaults⟩ := h
  simp [State.backed_iff, hfaults]

/-- A stored value is what its cell holds, in canonical form. -/
theorem State.cell_storeCell_self {s : State} (a v : Int) (hm : s.mem.wf = true) :
    State.cell { s with mem := s.storeCell a v } a = v := Memory.read_write_self a.toNat v hm

/-- A store leaves every other cell as it is. -/
theorem State.cell_storeCell_other (s : State) {a b : Int} (v : Int) (ha : 0 ≤ a) (hb : 0 ≤ b) (h : b ≠ a) :
    State.cell { s with mem := s.storeCell a v } b = s.cell b := Memory.read_write_other s.mem v (by omega)

/-- Settles O29: the usable cells are the backed ones, where a store is read back and leaves the other cells alone;
at S both accesses raise. -/
theorem memoryAccessActsOnBackedCells : Obligations.MemoryAccessActsOnBackedCells := by
  intro s a v hm
  refine ⟨fun ha => ?_, fun hbad => ?_⟩
  · have hback : s.backed a = true := (s.backed_iff a).2 ha
    refine ⟨memRead_backed hback, _, memWrite_backed v hback, ?_, fun b hb hne => ?_, rfl⟩
    · rw [memRead_backed ((s.backed_withMem _ a).trans hback), State.cell_storeCell_self a v hm]
    · have hback' : s.backed b = true := (s.backed_iff b).2 hb
      rw [memRead_backed ((s.backed_withMem _ b).trans hback'), memRead_backed hback',
        State.cell_storeCell_other s v ha.1 hb.1 hne]
  · have hback := State.not_backed_of_unbacked hbad
    exact ⟨memRead_unbacked hback, memWrite_unbacked v hback⟩

end Sys2Proof.Machine
end

section
/-!
SUPPORT. The encoding (30_encoding R50 to R57): tags and opcodes correspond one to one below the reserved tags, the
three formats take exactly the argument lists of their length, and so decode and encode are inverse to each other.
-/

namespace Sys2Proof

/-! ### Tags and opcodes -/

/-- The decoder's tag list is the inverse of the encoder's (30_encoding R55). -/
theorem opcodeOfTag_eq_some_iff {t : Tag} {o : Opcode} : opcodeOfTag t = some o ↔ t = tagOf o := by
  revert t
  cases o <;> decide

/-- The tags that name an opcode are those below the reserved ones (30_encoding R56). -/
theorem exists_eq_tagOf_iff {t : Tag} : (∃ o, t = tagOf o) ↔ t.toNat < 12 := by
  have hsome : ∀ t : Tag, (opcodeOfTag t).isSome = true ↔ t.toNat < 12 := by decide
  simp only [← opcodeOfTag_eq_some_iff, ← Option.isSome_iff_exists, hsome]

/-- The arity by the number of the tag is the arity of the opcode's format (30_encoding R53, R55). -/
@[simp] theorem arityOfTag_tagOf (o : Opcode) : arityOfTag (tagOf o) = o.arity := by cases o <;> rfl

/-! ### The three formats -/

theorem takeNone_eq_some_iff {i j : Instr} {args : List Int} : takeNone i args = some j ↔ args = [] ∧ i = j := by
  cases args <;> simp [takeNone]

theorem takeOne_eq_some_iff {f : Int → Instr} {args : List Int} {i : Instr} :
    takeOne f args = some i ↔ ∃ a0, args = [a0] ∧ f a0 = i := by
  unfold takeOne
  split
  case h_1 a0 => simp
  case h_2 hne => exact iff_of_false nofun fun ⟨a0, h, _⟩ => hne a0 h

theorem takeTwo_eq_some_iff {f : Int → Int → Instr} {args : List Int} {i : Instr} :
    takeTwo f args = some i ↔ ∃ a0 a1, args = [a0, a1] ∧ f a0 a1 = i := by
  unfold takeTwo
  split
  case h_1 a0 a1 => simp
  case h_2 hne => exact iff_of_false nofun fun ⟨a0, a1, h, _⟩ => hne a0 a1 h

theorem exists_takeNone_iff {i : Instr} {args : List Int} :
    (∃ j, takeNone i args = some j) ↔ args.length = 0 := by
  simp [takeNone_eq_some_iff]

theorem exists_takeOne_iff {f : Int → Instr} {args : List Int} :
    (∃ i, takeOne f args = some i) ↔ args.length = 1 := by
  simp [takeOne_eq_some_iff, List.length_eq_one_iff]

theorem exists_takeTwo_iff {f : Int → Int → Instr} {args : List Int} :
    (∃ i, takeTwo f args = some i) ↔ args.length = 2 := by
  simp [takeTwo_eq_some_iff, List.length_eq_two]

/-- The instruction made of an opcode and an argument list is the one that has both (30_encoding R53, R57). -/
theorem instrOf_eq_some_iff {o : Opcode} {args : List Int} {i : Instr} :
    instrOf o args = some i ↔ o = i.opcode ∧ args = i.args := by
  constructor
  · intro h
    cases o
    case hlt =>
      obtain ⟨rfl, rfl⟩ := takeNone_eq_some_iff.1 h
      exact ⟨rfl, rfl⟩
    case mov | cmp | cmpIndirectInc | remainder | add =>
      obtain ⟨a0, a1, rfl, rfl⟩ := takeTwo_eq_some_iff.1 h
      exact ⟨rfl, rfl⟩
    case inp | out | outChar | outIndirect | jmp | branchEq =>
      obtain ⟨a0, rfl, rfl⟩ := takeOne_eq_some_iff.1 h
      exact ⟨rfl, rfl⟩
  · rintro ⟨rfl, rfl⟩
    cases i <;> rfl

/-- An opcode makes an instruction of exactly the argument lists of its arity (30_encoding R53, R54). -/
theorem exists_instrOf_iff {o : Opcode} {args : List Int} :
    (∃ i, instrOf o args = some i) ↔ args.length = o.arity := by
  cases o
  case hlt => exact exists_takeNone_iff
  case mov | cmp | cmpIndirectInc | remainder | add => exact exists_takeTwo_iff
  case inp | out | outChar | outIndirect | jmp | branchEq => exact exists_takeOne_iff

/-! ### The decoder and the encoder -/

/-- What the decoder answers: the instruction that an opcode with the record's tag makes of its arguments. -/
theorem decode_eq_ok_iff {r : Record} {i : Instr} :
    decode r = .ok i ↔ ∃ o, r.op = tagOf o ∧ instrOf o r.args = some i := by
  simp only [← opcodeOfTag_eq_some_iff]
  unfold decode
  cases opcodeOfTag r.op with
  | none => simp
  | some o =>
    simp only [Option.some.injEq, exists_eq_left']
    cases instrOf o r.args <;> simp

theorem eq_encodeAt_iff {r : Record} {src : Int} {i : Instr} :
    r = encodeAt src i ↔ r.op = tagOf i.opcode ∧ r.args = i.args ∧ r.sourceAddress = src := by
  cases r
  simp [encodeAt]

/-- The source address is carried and never read (D23). -/
theorem decode_eq_ok_iff_eq_encodeAt {r : Record} {i : Instr} :
    decode r = .ok i ↔ r = encodeAt r.sourceAddress i := by
  rw [decode_eq_ok_iff, eq_encodeAt_iff]
  simp [instrOf_eq_some_iff]

@[simp] theorem decode_encodeAt (src : Int) (i : Instr) : decode (encodeAt src i) = .ok i :=
  decode_eq_ok_iff_eq_encodeAt.2 rfl

/-- Every tag in front of arguments is the numbered form of a record (30_encoding R55). -/
theorem recordOfNumbered_tag (t : Tag) (args : List Int) :
    recordOfNumbered ((t.toNat : Int) :: args) = .ok { op := t, args := args } := by
  have ht : (t.toNat : Int) < 16 := by exact_mod_cast t.isLt
  simp [recordOfNumbered, ht]

@[simp] theorem decodeNumbered_encodeNumbered (i : Instr) : decodeNumbered (encodeNumbered i) = .ok i := by
  unfold decodeNumbered encodeNumbered
  rw [recordOfNumbered_tag]
  exact decode_encodeAt 0 i

theorem Record.wf_iff {r : Record} : r.wf = true ↔ r.op.toNat < 12 ∧ r.args.length = arityOfTag r.op := by
  simp [Record.wf, Record.tagDefined, Record.arityFits]

/-- The decoder accepts exactly the records the launch admits (30_encoding R54, R56). -/
theorem exists_decode_eq_ok_iff {r : Record} : (∃ i, decode r = .ok i) ↔ r.wf = true := by
  calc (∃ i, decode r = .ok i)
    _ ↔ ∃ o, r.op = tagOf o ∧ r.args.length = o.arity := by
      simp only [decode_eq_ok_iff, exists_comm (α := Instr), exists_and_left, exists_instrOf_iff]
    _ ↔ ∃ o, r.op = tagOf o ∧ r.args.length = arityOfTag r.op :=
      exists_congr fun o => and_congr_right fun h => by rw [h, arityOfTag_tagOf]
    _ ↔ r.wf = true := by rw [exists_and_right, exists_eq_tagOf_iff, Record.wf_iff]

/-- Settles O1: the tag fixes the opcode and the opcode with its arguments fixes the instruction, and the numbered
form is read back as the encoding. -/
theorem decodeAndEncodeAgree : Obligations.DecodeAndEncodeAgree :=
  ⟨fun _ _ => decode_eq_ok_iff_eq_encodeAt, decodeNumbered_encodeNumbered⟩

/-- Settles O2: the tags below 12 are those of opcodes, and each opcode takes the argument lists of its arity. -/
theorem decodeSucceedsExactlyOnWellFormedRecords : Obligations.DecodeSucceedsExactlyOnWellFormedRecords :=
  fun _ => exists_decode_eq_ok_iff.trans Record.wf_iff

/-- Settles O3: the twelve forms are the encodings of their instructions, and tag 12 names no opcode. -/
theorem numberedFormsDecode : Obligations.NumberedFormsDecode :=
  ⟨decodeNumbered_encodeNumbered .hlt,
   decodeNumbered_encodeNumbered (.mov 0 1),
   decodeNumbered_encodeNumbered (.cmp 0 1),
   decodeNumbered_encodeNumbered (.cmpIndirectInc 0 1),
   decodeNumbered_encodeNumbered (.remainder 0 1),
   decodeNumbered_encodeNumbered (.add 3 2),
   decodeNumbered_encodeNumbered (.inp 5),
   decodeNumbered_encodeNumbered (.out 3),
   decodeNumbered_encodeNumbered (.outChar 0),
   decodeNumbered_encodeNumbered (.outIndirect 2),
   decodeNumbered_encodeNumbered (.jmp (-1)),
   decodeNumbered_encodeNumbered (.branchEq 5),
   rfl⟩

end Sys2Proof
end

section
/-!
SUPPORT. The datapath operations one by one (40_datapath_alu R64 to R76): what the address latch, the input latch and
the ALU do in each case, with a raise written as the frozen state it leaves.
-/

namespace Sys2Proof.Machine

/-- The state a raised fault freezes is the one the statements write out (60_exceptions R131). -/
theorem raise_fault_eq_frozen (c : FaultCause) (s : State) : raise (.fault c) s = .raised (Claims.frozen c s) := rfl

/-! ### The address latch -/

theorem withArg_of_getElem? {i : Nat} {s : State} {a : Int} (k : Int → Flow) (h : s.args[i]? = some a) :
    withArg i k s = k a := by
  rw [withArg, h]

theorem latchAddress_inRange {a : Int} {s : State} (h : Claims.InLatchRange s a) :
    latchAddress a s = .go { s with da := a } := if_pos (decide_eq_true h)

theorem latchAddress_outside {a : Int} {s : State} (h : ¬ Claims.InLatchRange s a) :
    latchAddress a s = .raised (Claims.frozen (.dataAddress a) s) := by
  rw [latchAddress, if_neg (by simpa [inLatchRange] using h), raise_fault_eq_frozen]

/-- Settles O28: every selector hands the address it selects to the same latch, which checks the range before it
writes. -/
theorem addressLatchAcceptsZeroToSizeInclusive : Obligations.AddressLatchAcceptsZeroToSizeInclusive := by
  intro sel s addr hsel
  have hlatch : latchDataAddress sel s = latchAddress addr s := by
    cases sel
    case arg0 | arg1 => exact withArg_of_getElem? _ hsel
    case acc => exact congrArg (latchAddress · s) hsel
  rw [hlatch]
  exact ⟨latchAddress_inRange, fun hout => latchAddress_outside (by omega)⟩

/-! ### The input latch -/

theorem isCharCode_natCast {c : Nat} : isCharCode (c : Int) = true ↔ c ≤ 127 := by
  rw [isCharCode, decide_eq_true_eq]
  omega

theorem latchAccFromInput_nil {s : State} (hq : s.queue = []) :
    latchAccFromInput s = raise .inputExhausted s := by
  rw [latchAccFromInput, hq]

theorem latchAccFromInput_cons {s : State} {c : Nat} {rest : List Nat} (hq : s.queue = c :: rest) :
    latchAccFromInput s =
      if c ≤ 127 then .go { s with queue := rest, acc := (c : Int) }
      else .raised (Claims.frozen (.inputCode c) { s with queue := rest }) := by
  rw [latchAccFromInput, hq]
  simp only [isCharCode_natCast]
  rfl

/-- Settles O31: the code decides between the two latches of a queue that is not empty, both of which pop. -/
theorem inputLatchPopsThenChecks : Obligations.InputLatchPopsThenChecks :=
  fun _ => ⟨latchAccFromInput_nil, fun _ _ hq =>
    ⟨fun hc => (latchAccFromInput_cons hq).trans (if_pos hc),
     fun hc => (latchAccFromInput_cons hq).trans (if_neg (Nat.not_le.2 hc))⟩⟩

/-! ### The operations of the ALU -/

/-- Settles O32: the three equations of aluResult that look at no convention. -/
theorem compareAddAndIncrementAreExact : Obligations.CompareAddAndIncrementAreExact :=
  fun _ _ _ => ⟨rfl, rfl, rfl⟩

theorem aluResult_remainder_zero (conv : RemConvention) (r : Int) :
    aluResult conv .remainder 0 r = .error (.divideByZero r) := rfl

theorem aluResult_remainder {l : Int} (conv : RemConvention) (r : Int) (h : l ≠ 0) :
    aluResult conv .remainder l r = .ok (remBy conv r l) := if_neg h

/-- The remainder of the machine's own convention is the one the statements write out. -/
theorem remBy_eq_remainderOf (s : State) (a b : Int) :
    remBy s.config.remConvention a b = Claims.remainderOf s a b := by
  unfold Claims.remainderOf
  cases s.config.remConvention <;> rfl

/-- alu_apply writes ALU alone when neither the operand nor the operation raises (40_datapath_alu R71). -/
theorem aluApply_of_ok {op : AluOp} {lsel : LeftSel} {rsel : RightSel} {s : State} {l v : Int}
    (hl : leftOperand lsel s = .ok l)
    (hv : aluResult s.config.remConvention op l (rightOperand rsel s) = .ok v) :
    aluApply op lsel rsel s = .go { s with alu := v } := by
  simp only [aluApply, hl, hv]

/-- alu_apply writes nothing when the operation raises (40_datapath_alu R71). -/
theorem aluApply_of_error {op : AluOp} {lsel : LeftSel} {rsel : RightSel} {s : State} {l : Int} {c : FaultCause}
    (hl : leftOperand lsel s = .ok l)
    (hc : aluResult s.config.remConvention op l (rightOperand rsel s) = .error c) :
    aluApply op lsel rsel s = .raised (Claims.frozen c s) := by
  simp only [aluApply, hl, hc, raise_fault_eq_frozen]

/-- The floored remainder by a negative divisor has the divisor's sign, and is smaller in magnitude. -/
theorem fmod_bounds_of_neg (r : Int) {l : Int} (h : l < 0) : l < r.fmod l ∧ r.fmod l ≤ 0 := by
  have hneg := Int.neg_fmod_neg r l
  have hnonneg := Int.fmod_nonneg_of_pos (-r) (b := -l) (by omega)
  have hlt := Int.fmod_lt_of_pos (-r) (b := -l) (by omega)
  omega

theorem natAbs_tmod_lt (r : Int) {l : Int} (h : l ≠ 0) : (r.tmod l).natAbs < l.natAbs := by
  rw [Int.natAbs_tmod]
  exact Nat.mod_lt _ (Int.natAbs_pos.2 h)

/-- The truncated remainder has the dividend's sign. -/
theorem tmod_nonpos {r : Int} (l : Int) (h : r ≤ 0) : r.tmod l ≤ 0 := by
  have hneg := Int.neg_tmod r l
  have hnonneg := Int.tmod_nonneg (a := -r) l (by omega)
  omega

/-- Both conventions give the same remainder of operands that are not negative (40_datapath_alu R73). -/
theorem remBy_floored_eq_truncated {a b : Int} (ha : 0 ≤ a) (hb : 0 ≤ b) :
    remBy .floored a b = remBy .truncated a b := Int.fmod_eq_tmod_of_nonneg ha hb

/-- Settles O33: the quotient is the one that belongs to the convention, floored or truncated. -/
theorem remainderIsRightModLeft : Obligations.RemainderIsRightModLeft := by
  refine ⟨aluResult_remainder_zero, fun _ _ _ hl => aluApply_of_error hl (aluResult_remainder_zero _ _),
    fun l r hl => ?floored, fun l r hl => ?truncated, fun l r hl hr => ?agree⟩
  case floored =>
    exact ⟨r.fdiv l, r.fmod l, aluResult_remainder _ r hl, (Int.fdiv_mul_add_fmod r l).symm,
      fun h => ⟨Int.fmod_nonneg_of_pos r h, Int.fmod_lt_of_pos r h⟩, fmod_bounds_of_neg r⟩
  case truncated =>
    exact ⟨r.tdiv l, r.tmod l, aluResult_remainder _ r hl, (Int.tdiv_mul_add_tmod r l).symm,
      natAbs_tmod_lt r hl, Int.tmod_nonneg l, tmod_nonpos l⟩
  case agree =>
    by_cases hz : l = 0
    · rw [hz, aluResult_remainder_zero, aluResult_remainder_zero]
    · rw [aluResult_remainder _ r hz, aluResult_remainder _ r hz, remBy_floored_eq_truncated hr hl]

/-- Settles O35: BR is always there to be read, so only the operation can raise, and of the four only a remainder
by 0 does. -/
theorem aluAppliesToTheBackRegister : Obligations.AluAppliesToTheBackRegister := by
  intro op rsel s
  have hl : leftOperand .backRegister s = .ok s.br := rfl
  refine ⟨fun ⟨hop, hz⟩ => ?_, fun hdefined => ?_⟩
  · rw [hz] at hl
    exact hop ▸ aluApply_of_error hl (aluResult_remainder_zero _ _)
  · cases op
    case cmp => exact ⟨_, aluApply_of_ok hl rfl, fun _ => rfl, nofun, nofun, nofun⟩
    case add => exact ⟨_, aluApply_of_ok hl rfl, nofun, fun _ => rfl, nofun, nofun⟩
    case increment => exact ⟨_, aluApply_of_ok hl rfl, nofun, nofun, nofun, fun _ => rfl⟩
    case remainder =>
      have hz : s.br ≠ 0 := fun hz => hdefined ⟨rfl, hz⟩
      exact ⟨_, aluApply_of_ok hl (aluResult_remainder _ _ hz), nofun, nofun,
        fun _ => remBy_eq_remainderOf s _ _, nofun⟩

end Sys2Proof.Machine
end

section
/-!
SUPPORT. Decimal strings (40_datapath_alu R80): one induction over the digits of a number, and by it their value,
their range and the first of them.
-/

namespace Sys2Proof.Machine

theorem digitChar_toNat {d : Nat} (h : d < 10) : (digitChar d).toNat = 48 + d := by
  rw [digitChar, Char.toNat_ofNat, if_pos (.inl (by omega))]

theorem digitChar_toNat_mem_range {d : Nat} (h : d < 10) :
    48 ≤ (digitChar d).toNat ∧ (digitChar d).toNat ≤ 57 := by
  rw [digitChar_toNat h]
  omega

theorem digitChar_ne_zero {d : Nat} (h : d < 10) (h0 : d ≠ 0) : digitChar d ≠ '0' := by
  intro heq
  have hcode : 48 + d = 48 := (digitChar_toNat h).symm.trans (congrArg Char.toNat heq)
  omega

/-- A digit at the end is worth itself, and the digits before it ten times what they were. -/
theorem digitsValue_append_digitChar (ds : List Char) {d : Nat} (h : d < 10) :
    Claims.digitsValue (ds ++ [digitChar d]) = 10 * Claims.digitsValue ds + d := by
  simp [Claims.digitsValue, digitChar_toNat h]

/-- Induction over the digits of a number: a single digit, or the digits of n / 10 and the last digit. The fuel n
suffices, since n / 10 is smaller than n. -/
theorem decimalDigits_induction {P : Nat → List Char → Prop} (digit : ∀ d < 10, P d [digitChar d])
    (more : ∀ n ds, 10 ≤ n → P (n / 10) ds → P n (ds ++ [digitChar (n % 10)])) (n : Nat) :
    P n (decimalDigits n) := by
  suffices h : ∀ fuel n, n ≤ fuel → P n (decimalDigitsFuel fuel n) from h n n le_rfl
  intro fuel
  induction fuel with
  | zero =>
    intro n hn
    rw [Nat.le_zero.1 hn]
    exact digit 0 (by omega)
  | succ fuel ih =>
    intro n hn
    rw [decimalDigitsFuel]
    split
    case isTrue hlt => exact digit n hlt
    case isFalse hge => exact more n _ (by omega) (ih _ (by omega))

theorem digitsValue_decimalDigits (n : Nat) : Claims.digitsValue (decimalDigits n) = n := by
  induction n using decimalDigits_induction with
  | digit d hd => simpa [Claims.digitsValue] using digitsValue_append_digitChar [] hd
  | more n ds _ ih =>
    rw [digitsValue_append_digitChar ds (Nat.mod_lt n (by omega)), ih]
    omega

theorem decimalDigits_range (n : Nat) : ∀ c ∈ decimalDigits n, 48 ≤ c.toNat ∧ c.toNat ≤ 57 := by
  refine decimalDigits_induction (P := fun _ ds => ∀ c ∈ ds, 48 ≤ c.toNat ∧ c.toNat ≤ 57)
    (fun d hd => ?_) (fun n ds _ ih => ?_) n
  · exact List.forall_mem_singleton.2 (digitChar_toNat_mem_range hd)
  · exact List.forall_mem_append.2
      ⟨ih, List.forall_mem_singleton.2 (digitChar_toNat_mem_range (Nat.mod_lt n (by omega)))⟩

/-- The first digit of a positive number is there and is not 0: it is the first digit of n / 10 where there is one. -/
theorem decimalDigits_head? (n : Nat) : n ≠ 0 → ∃ c, (decimalDigits n).head? = some c ∧ c ≠ '0' := by
  refine decimalDigits_induction (P := fun n ds => n ≠ 0 → ∃ c, ds.head? = some c ∧ c ≠ '0')
    (fun d hd h0 => ⟨_, rfl, digitChar_ne_zero hd h0⟩) (fun n ds hn ih _ => ?_) n
  obtain ⟨c, hc, hne⟩ := ih (by omega)
  exact ⟨c, by rw [List.head?_append, hc, Option.some_or], hne⟩

theorem decimalString_eq (v : Int) :
    decimalString v = (if v < 0 then ['-'] else []) ++ decimalDigits v.natAbs := by
  unfold decimalString
  split <;> rfl

/-- Settles O60: the digits are those of |v|, and those of a positive number do not begin with 0. -/
theorem numbersRenderAsDecimalStrings : Obligations.NumbersRenderAsDecimalStrings := by
  intro v
  refine ⟨decimalDigits v.natAbs, decimalString_eq v, digitsValue_decimalDigits _, decimalDigits_range _,
    fun hv => ?_, fun hv => hv ▸ rfl⟩
  obtain ⟨c, hc, hne⟩ := decimalDigits_head? v.natAbs (Int.natAbs_ne_zero.2 hv)
  simpa [hc] using hne

end Sys2Proof.Machine
end

section
/-!
SUPPORT. The three outcomes of an address (40_datapath_alu R64, 20_memory R36) for every micro-operation that latches
one and goes on at its cell, in the words of the statements; then the micro-operation WRITE_ARG0 (41_microops R89).
-/

namespace Sys2Proof.Machine

theorem atCell_of_usable {a : Int} {s : State} (k : State → Flow) (h : Claims.Usable s a) :
    atCell a s k = k { s with da := a } := atCell_backed k ((s.backed_iff a).2 h)

/-- The latch faults with nothing changed. -/
theorem atCell_of_not_inLatchRange {a : Int} {s : State} (k : State → Flow) (h : ¬ Claims.InLatchRange s a) :
    atCell a s k = .raised (Claims.frozen (.dataAddress a) s) := atCell_outside k (mt of_decide_eq_true h)

/-- The latch accepts S, so DA is set when the access faults. -/
theorem atCell_of_unbacked {a : Int} {s : State} (k : State → Flow) (h : Claims.Unbacked s a) :
    atCell a s k = .raised (Claims.frozen (.unbackedCell a) { s with da := a }) := by
  have hrange : Claims.InLatchRange s a := ⟨h.1 ▸ Int.natCast_nonneg _, h.1.le⟩
  exact atCell_unbacked k (State.not_backed_of_unbacked h) (decide_eq_true hrange)

/-- The ROM leaves WRITE_ARG0 out (42_control_unit R103). -/
theorem writeArg0_notMem_microcode (o : Opcode) : MicroOp.writeArg0 ∉ microcode o := by
  cases o <;> decide

/-- Settles O34: the operation goes on at the cell that argument 0 names, so it has the three outcomes of an address;
the ROM is checked opcode by opcode. -/
theorem writeArg0StoresTheAccumulator : Obligations.WriteArg0StoresTheAccumulator := by
  refine ⟨fun s a0 harg => ?_, writeArg0_notMem_microcode⟩
  rw [perform_writeArg0, withArg_of_getElem? _ harg]
  exact ⟨atCell_of_usable _, atCell_of_not_inLatchRange _, atCell_of_unbacked _⟩

end Sys2Proof.Machine
end

section
/-!
SUPPORT. The control unit (42_control_unit R103 to R113): what the fetch answers, that a micro-operation which goes on
leaves STATUS alone unless it halts and one which raises leaves a raised stop, and the small steps of a sequence.
-/

namespace Sys2Proof.Machine

/-! ### The fetch -/

theorem step_of_running {s : State} (hrun : s.status = .running) : step s = stepRunning exec s := by
  rw [step, stepWith, hrun]

theorem slotAtPc_eq_none_iff {s : State} :
    s.slotAtPc = none ↔ s.pc < 0 ∨ (s.program.length : Int) ≤ s.pc := by
  unfold State.slotAtPc
  split <;> simp only [List.getElem?_eq_none_iff, true_iff] <;> omega

theorem slotAtPc_eq_some_iff {s : State} {r : Record} :
    s.slotAtPc = some r ↔ 0 ≤ s.pc ∧ s.program[s.pc.toNat]? = some r := by
  unfold State.slotAtPc
  split <;> simp_all

theorem step_fetchFault {s : State} (hrun : s.status = .running) (hslot : s.slotAtPc = none) :
    step s = .next (s.countInstruction.stopWith (.fault (.programCounterOutOfRange s.pc))) := by
  rw [step_of_running hrun, stepRunning, hslot]

theorem step_decoded {s : State} {r : Record} {i : Instr} (hrun : s.status = .running)
    (hslot : s.slotAtPc = some r) (hdec : decode r = .ok i) : step s = exec i s.countInstruction := by
  rw [step_of_running hrun, stepRunning, hslot]
  simp only [hdec]

/-- The instruction the statements find at PC is the one the fetch decodes. -/
theorem instrAtPc_eq_some_iff {s : State} {i : Instr} :
    Claims.instrAtPc s = some i ↔ ∃ r, s.slotAtPc = some r ∧ decode r = .ok i := by
  unfold Claims.instrAtPc State.slotAtPc
  split
  case isFalse => simp
  case isTrue =>
    cases s.program[s.pc.toNat]? with
    | none => simp
    | some r => cases hd : decode r <;> simp [hd]

theorem step_of_instrAtPc {s : State} {i : Instr} (hrun : s.status = .running) (hi : Claims.instrAtPc s = some i) :
    step s = exec i s.countInstruction := by
  obtain ⟨r, hslot, hdec⟩ := instrAtPc_eq_some_iff.1 hi
  exact step_decoded hrun hslot hdec

/-- Settles O4: the slot is the one the fetch reads. -/
theorem stepRunsTheDecodedInstruction : Obligations.StepRunsTheDecodedInstruction :=
  fun _ _ _ hrun hpc hslot hdec => step_decoded hrun (slotAtPc_eq_some_iff.2 ⟨hpc, hslot⟩) hdec

/-- Settles O5: outside 0..N-1 there is no slot, and the state frozen is the one with IC counted. -/
theorem fetchOutsideTheProgramFaults : Obligations.FetchOutsideTheProgramFaults :=
  fun _ hrun hpc => step_fetchFault hrun (slotAtPc_eq_none_iff.2 hpc)

/-! ### Progress -/

theorem Flow.LeavesState.exists_outcome {f : Flow} (h : f.LeavesState) : ∃ t, f.outcome = .next t := by
  cases f with
  | go s => exact ⟨s, rfl⟩
  | raised s => exact ⟨s, rfl⟩
  | noArgument i => exact absurd rfl (h i)

/-- Settles O8: an instruction has the arguments that its opcode's sequence reads (42_control_unit R106), and no other
operation is refused. -/
theorem execAlwaysAnswersANextState : Obligations.ExecAlwaysAnswersANextState := by
  intro i s
  rw [exec_eq]
  refine Flow.LeavesState.exists_outcome (runSequence_leavesState fun op hop => ?_)
  rw [State.latchInstr_args, instr_args_length]
  exact argsNeeded_le_arity _ op hop

/-- Settles O7: the fetch faults, or it finds a record of the program, which the invariant says is well formed, so that
it decodes to an instruction. -/
theorem runningStatesAlwaysStep : Obligations.RunningStatesAlwaysStep := by
  intro s hinv hrun
  cases hslot : s.slotAtPc with
  | none => exact ⟨_, step_fetchFault hrun hslot⟩
  | some r =>
    have hmem : r ∈ s.program := List.mem_of_getElem? (slotAtPc_eq_some_iff.1 hslot).2
    obtain ⟨i, hdec⟩ := exists_decode_eq_ok_iff.2 (hinv.program_wf r hmem)
    rw [step_decoded hrun hslot hdec]
    exact execAlwaysAnswersANextState i _

/-! ### The microcode ROM -/

theorem microcode_ne_nil (o : Opcode) : microcode o ≠ [] := by cases o <;> simp [microcode]

theorem endsSequence_getLast_microcode (o : Opcode) :
    Claims.endsSequence ((microcode o).getLast (microcode_ne_nil o)) = true := by cases o <;> rfl

theorem not_endsSequence_of_mem_dropLast_microcode (o : Opcode) :
    ∀ op ∈ (microcode o).dropLast, Claims.endsSequence op = false := by cases o <;> decide

/-- The tick table of the statements is the ROM's (42_control_unit R111). -/
theorem ticksOf_eq_length_microcode (o : Opcode) : Claims.ticksOf o = (microcode o).length := by cases o <;> rfl

/-- Settles O36: a sequence is its last micro-operation after the others, and the ROM is checked opcode by opcode. -/
theorem sequencesEndWithOnePcWriteOrHalt : Obligations.SequencesEndWithOnePcWriteOrHalt :=
  fun o => ⟨(microcode o).dropLast, (microcode o).getLast (microcode_ne_nil o),
    (List.dropLast_append_getLast _).symm, endsSequence_getLast_microcode o,
    not_endsSequence_of_mem_dropLast_microcode o⟩

/-! ### How a micro-operation ends -/

/-- A raised stop: STATUS holds the outcome of a cause, a fault with this state's own context (60_exceptions R131). -/
def State.Raised (s : State) : Prop := ∃ c, s.status = .stopped (s.outcomeOf c)

theorem State.stopWith_raised (s : State) (c : StopCause) : (s.stopWith c).Raised := ⟨c, rfl⟩

theorem State.Raised.fault_context {s : State} {r : FaultRecord} (h : s.Raised)
    (hr : s.status = .stopped (.fault r)) : r.context = s.context := by
  obtain ⟨c, hc⟩ := h
  exact s.stopWith_fault_context c r (hc.symm.trans hr)

theorem State.Raised.not_completed {s : State} (h : s.Raised) : ¬ Claims.Completed s := by
  obtain ⟨c, hc⟩ := h
  cases c <;> simp [Claims.Completed, hc]

/-- Both faults of an access are raised stops, so only what follows at a backed cell is left to show. -/
theorem atCell_yields {a : Int} {s : State} {k : State → Flow} {go : State → Prop}
    (hk : (k { s with da := a }).Yields go State.Raised) : (atCell a s k).Yields go State.Raised := by
  by_cases hl : inLatchRange s.size a = true
  · by_cases hb : s.backed a = true
    · rwa [atCell_backed k hb]
    · rw [atCell_unbacked k hb hl]
      exact State.stopWith_raised _ _
  · rw [atCell_outside k hl]
    exact State.stopWith_raised _ _

/-- STATUS where a micro-operation goes on: HALT alone writes it (41_microops R99). -/
def statusAfter (op : MicroOp) (s : State) : Status := if op = .halt then .stopped .halted else s.status

theorem perform_status (op : MicroOp) (s : State) :
    (perform op s).Yields (fun t => t.status = statusAfter op s) State.Raised := by
  cases op
  case readArg0 => exact perform_readArg0 s ▸ withArg_yields fun _ => atCell_yields rfl
  case writeFromInput =>
    rw [perform_writeFromInput]
    cases s.queue with
    | nil => exact State.stopWith_raised _ _
    | cons c rest =>
      cases hc : isCharCode (c : Int) with
      | false =>
        simp only [hc]
        exact State.stopWith_raised _ _
      | true =>
        simp only [hc, if_true]
        exact withArg_yields fun _ => atCell_yields rfl
  case readIndirect => exact perform_readIndirect s ▸ atCell_yields rfl
  case writeArg1 => exact perform_writeArg1 s ▸ withArg_yields fun _ => atCell_yields rfl
  case writeArg0 => exact perform_writeArg0 s ▸ withArg_yields fun _ => atCell_yields rfl
  case writeBrArg0 => exact perform_writeBrArg0 s ▸ withArg_yields fun _ => atCell_yields rfl
  case aluCmp => exact perform_aluCmp s ▸ withArg_yields fun _ => atCell_yields rfl
  case aluRem =>
    refine perform_aluRem s ▸ withArg_yields fun a => atCell_yields ?_
    by_cases hz : s.cell a = 0
    · rw [if_pos hz]
      exact State.stopWith_raised _ _
    · rw [if_neg hz]
      rfl
  case aluAdd => exact perform_aluAdd s ▸ withArg_yields fun _ => atCell_yields rfl
  case incAtArg0 => exact perform_incAtArg0 s ▸ withArg_yields fun _ => atCell_yields rfl
  case outNum => exact perform_outNum s ▸ rfl
  case outChar =>
    rw [perform_outChar]
    cases isCharCode s.acc with
    | false => exact State.stopWith_raised _ _
    | true => rfl
  case nextPc => exact perform_nextPc s ▸ rfl
  case jump => exact perform_jump s ▸ withArg_yields fun _ => rfl
  case halt => exact perform_halt s ▸ rfl
  case branchIfZero =>
    rw [perform_branchIfZero]
    by_cases hz : s.acc = 0
    · rw [if_pos hz]
      exact withArg_yields fun _ => rfl
    · rw [if_neg hz]
      rfl

/-- What is left has both of two properties. -/
theorem Flow.Leaves.and_yields {f : Flow} {P go stop : State → Prop} (hl : f.Leaves P) (hy : f.Yields go stop) :
    f.Yields (fun t => P t ∧ go t) (fun t => P t ∧ stop t) := by
  cases f with
  | go s => exact ⟨hl, hy⟩
  | raised s => exact ⟨hl, hy⟩
  | noArgument i => trivial

/-- How a micro-operation ends, for the fields that the control unit writes (10_state R29). -/
theorem perform_control (op : MicroOp) (s : State) :
    (perform op s).Yields (fun t => SameControl s t ∧ t.status = statusAfter op s)
      (fun t => SameControl s t ∧ t.Raised) :=
  (perform_sameControl op s).and_yields (perform_status op s)

/-- An invocation, from the micro-operation between its two ticks. -/
theorem invoke_yields {op : MicroOp} {s : State} {mid go stop : State → Prop}
    (hp : (perform op s.tickBefore).Yields mid stop) (hgo : ∀ t, mid t → go t.tickAfter.upcNext) :
    (invoke op s).Yields go stop :=
  Flow.yields_andThen hp hgo

/-! ### Small steps -/

theorem microStep_at {s : State} {o : Opcode} {op : MicroOp} {ops : List MicroOp} (hir : s.ir = some o)
    (hops : (microcode o).drop s.upc = op :: ops) : microStep s = invoke op s := by
  have hop : (microcode o)[s.upc]? = some op := by
    rw [← List.head?_drop, hops, List.head?_cons]
  simp only [microStep, hir, hop]

/-- Small steps from a position run the rest of the sequence (42_control_unit R113). -/
theorem microSteps_eq_runSequence {o : Opcode} {ops : List MicroOp} {s : State} (hir : s.ir = some o)
    (hops : (microcode o).drop s.upc = ops) : microSteps ops.length s = runSequence ops s := by
  induction ops generalizing s with
  | nil => rfl
  | cons op ops ih =>
    have hnext := invoke_yields (go := fun t => t.ir = s.ir ∧ t.upc = s.upc + 1) (perform_control op s.tickBefore)
      fun t ⟨hc, _⟩ => ⟨hc.ir, congrArg (· + 1) hc.upc⟩
    rw [List.length_cons, microSteps, runSequence, microStep_at hir hops]
    cases hf : invoke op s with
    | raised t => rfl
    | noArgument i => rfl
    | go t =>
      rw [hf] at hnext
      obtain ⟨htir, htupc⟩ := hnext
      refine ih (htir.trans hir) ?_
      rw [htupc, ← List.tail_drop, hops, List.tail_cons]

/-- Settles O9: the latched state is at position 0, and the tick table gives the length of the sequence from there. -/
theorem smallStepsGiveTheInstruction : Obligations.SmallStepsGiveTheInstruction := by
  intro i s
  rw [exec_eq, runInstruction, ticksOf_eq_length_microcode]
  exact congrArg Flow.outcome (microSteps_eq_runSequence (s := s.latchInstr i.opcode i.args) rfl rfl).symm

end Sys2Proof.Machine
end

section
/-!
SUPPORT. The counters (42_control_unit R107 to R111): one invariant of the positions of a sequence, and by it how an
instruction that completes and one that stops count their ticks.
-/

namespace Sys2Proof.Machine

/-- A property of the sequence still to run and the state, kept by each invocation that goes on, holds at the end; one
that raises leaves a stop. -/
theorem runSequence_yields {P : List MicroOp → State → Prop} {stop : State → Prop}
    (hop : ∀ op ops s, P (op :: ops) s → (invoke op s).Yields (P ops) stop) {ops : List MicroOp} {s : State}
    (hs : P ops s) : (runSequence ops s).Yields (P []) stop := by
  induction ops generalizing s with
  | nil => exact hs
  | cons op ops ih => exact Flow.yields_andThen (hop op ops s hs) fun _ ht => ih ht

/-- From s, u is at the position before ops in a sequence of n micro-operations, one tick for each position. -/
structure InSequence (s : State) (n : Nat) (ops : List MicroOp) (u : State) : Prop where
  completed : Claims.Completed u
  config : u.config = s.config
  position : u.upc + ops.length = n
  ticks : s.config.tickAtInvocation = true → u.tc = s.tc + u.upc

/-- From s, the micro-operation at the position of t has raised, its own tick counted. -/
structure StoppedInSequence (s t : State) : Prop where
  raised : t.Raised
  ticks : s.config.tickAtInvocation = true → t.tc = s.tc + t.upc + 1

theorem statusAfter_completed {op : MicroOp} {s t : State} (hs : Claims.Completed s)
    (ht : t.status = statusAfter op s) : Claims.Completed t := by
  unfold statusAfter at ht
  unfold Claims.Completed at hs ⊢
  by_cases hop : op = .halt
  · exact .inr (ht.trans (if_pos hop))
  · rwa [ht, if_neg hop]

theorem invoke_inSequence {s : State} {n : Nat} (op : MicroOp) (ops : List MicroOp) (u : State)
    (h : InSequence s n (op :: ops) u) : (invoke op u).Yields (InSequence s n ops) (StoppedInSequence s) := by
  have hp := perform_control op u.tickBefore
  have hpos := h.position
  rw [List.length_cons] at hpos
  unfold invoke
  cases hf : perform op u.tickBefore with
  | noArgument i => trivial
  | raised t =>
    rw [hf] at hp
    obtain ⟨hc, hraised⟩ := hp
    refine ⟨hraised, fun htick => ?_⟩
    have hticks := h.ticks htick
    simp only [hc.tc, hc.upc, State.tickBefore_tc, State.tickBefore_upc, h.config, htick, if_true]
    omega
  | go t =>
    rw [hf] at hp
    obtain ⟨hc, hstatus⟩ := hp
    refine ⟨statusAfter_completed h.completed hstatus, hc.config.trans h.config, ?_, fun htick => ?_⟩
    · simp only [State.upcNext_upc, State.tickAfter_upc, hc.upc, State.tickBefore_upc]
      omega
    · have := h.ticks htick
      simp only [State.upcNext_upc, State.upcNext_tc, State.tickAfter_upc, State.tickAfter_tc, hc.tc, hc.upc,
        hc.config, State.tickBefore_tc, State.tickBefore_upc, State.tickBefore_config, h.config, htick, if_true,
        Bool.true_or]
      omega

/-- How an instruction ends: at the end of its sequence, or in a raised stop inside it. -/
theorem exec_ends {i : Instr} {s t : State} (hrun : s.status = .running) (h : exec i s = .next t) :
    InSequence s (microcode i.opcode).length [] t ∨ StoppedInSequence s t := by
  rw [exec_eq] at h
  refine Flow.yields_of_outcome (runSequence_yields (P := InSequence s _) invoke_inSequence ?_) h
  exact ⟨.inl hrun, rfl, Nat.zero_add _, fun _ => rfl⟩

/-- Ticks of an instruction that completes (42_control_unit R111). -/
theorem exec_ticks_of_completed {i : Instr} {s t : State} (hrun : s.status = .running)
    (htick : s.config.tickAtInvocation = true) (h : exec i s = .next t) (ht : Claims.Completed t) :
    t.tc = s.tc + (microcode i.opcode).length := by
  rcases exec_ends hrun h with hend | hstop
  · rw [hend.ticks htick, ← hend.position, List.length_nil, Nat.add_zero]
  · exact absurd ht hstop.raised.not_completed

/-- Ticks of an instruction that stops: those of the positions before, and the one that stopped it
(42_control_unit R107). -/
theorem exec_ticks_of_not_completed {i : Instr} {s t : State} (hrun : s.status = .running)
    (htick : s.config.tickAtInvocation = true) (h : exec i s = .next t) (ht : ¬ Claims.Completed t) :
    t.tc = s.tc + t.upc + 1 := by
  rcases exec_ends hrun h with hend | hstop
  · exact absurd hend.completed ht
  · exact hstop.ticks htick

/-- No instruction lowers TC, under either value of TICK_AT_INVOCATION. -/
theorem exec_tc_le {i : Instr} {s t : State} (h : exec i s = .next t) : s.tc ≤ t.tc := by
  refine exec_leaves (P := fun u => s.tc ≤ u.tc) h le_rfl fun op _ u hu => ?_
  have hc := perform_sameControl op u.tickBefore
  have hbefore : s.tc ≤ u.tickBefore.tc := hu.trans (Nat.le_add_right _ _)
  refine invoke_leaves (fun v hv => ?_) (fun v hv => ?_) <;> rw [hv] at hc
  · exact (hbefore.trans hc.tc.ge).trans (Nat.le_add_right _ _)
  · exact hbefore.trans hc.tc.ge

/-- Settles O38: the tick table is the lengths of the sequences, and a completing instruction is at its end. -/
theorem ticksPerCompletedInstruction : Obligations.TicksPerCompletedInstruction := by
  intro i s t hrun htick h ht
  rw [ticksOf_eq_length_microcode]
  exact exec_ticks_of_completed hrun htick h ht

/-- A fault raised in a step records the context of the state it freezes (60_exceptions R131). -/
theorem step_fault_context {s t : State} {r : FaultRecord} (h : step s = .next t)
    (hr : t.status = .stopped (.fault r)) : r.context = t.context := by
  obtain ⟨hrun, ⟨-, rfl⟩ | ⟨_, i, -, -, hexec⟩⟩ := step_cases h
  · exact (State.stopWith_raised _ _).fault_context hr
  · rcases exec_ends (s := s.countInstruction) hrun hexec with hend | hstop
    · have hcompleted := hend.completed
      simp [Claims.Completed, hr] at hcompleted
    · exact hstop.raised.fault_context hr

theorem step_ic {s t : State} (h : step s = .next t) : t.ic = s.ic + 1 := by
  obtain ⟨-, ⟨-, rfl⟩ | ⟨_, i, -, -, hexec⟩⟩ := step_cases h
  · rfl
  · obtain ⟨-, -, -, hic⟩ := exec_sameParameters hexec
    exact hic

/-- Settles O37: IC is counted before the fetch, nothing else writes it, and a fault's context holds it as it is
when the run stops. -/
theorem everyStepCountsOneInstruction : Obligations.EveryStepCountsOneInstruction :=
  fun _ _ h => ⟨step_ic h, fun _ hr => (congrArg Context.ic (step_fault_context h hr)).trans (step_ic h)⟩

theorem step_tc_le {s t : State} (h : step s = .next t) : s.tc ≤ t.tc := by
  obtain ⟨-, ⟨-, rfl⟩ | ⟨_, i, -, -, hexec⟩⟩ := step_cases h
  · exact le_rfl
  · exact exec_tc_le (s := s.countInstruction) hexec

/-- Over completing instructions TC grows by the sum of the lengths of their sequences (42_control_unit R110). -/
theorem completingRun_tc {is : List Instr} {s u : State} (htick : s.config.tickAtInvocation = true)
    (h : Claims.CompletingRun is s u) : u.tc = s.tc + (is.map fun i => (microcode i.opcode).length).sum := by
  induction h with
  | done s => rfl
  | @step i is s t u hrun hi hstep hcompleted _ ih =>
    rw [step_of_instrAtPc hrun hi] at hstep
    obtain ⟨-, -, hconfig, -⟩ := exec_sameParameters hstep
    have hfirst : t.tc = s.tc + (microcode i.opcode).length :=
      exec_ticks_of_completed (s := s.countInstruction) hrun htick hstep hcompleted
    rw [ih (hconfig ▸ htick), hfirst, List.map_cons, List.sum_cons, Nat.add_assoc]

/-- Settles O39: over a run by induction on its instructions, at a stop by the position of the micro-operation that
raised, and a fetch fault invokes none. -/
theorem tickCounterIsTheSumOfSequenceLengths : Obligations.TickCounterIsTheSumOfSequenceLengths := by
  refine ⟨fun _ _ => step_tc_le, fun _ _ _ => completingRun_tc, fun i s t hrun htick hi hstep ht => ?_,
    fun s t hrun hpc hstep => ?_⟩
  · rw [step_of_instrAtPc hrun hi] at hstep
    exact exec_ticks_of_not_completed (s := s.countInstruction) hrun htick hstep ht
  · rw [fetchOutsideTheProgramFaults s hrun hpc] at hstep
    cases hstep
    rfl

end Sys2Proof.Machine
end

section
/-!
SUPPORT. Two runs side by side (42_control_unit R107, R109): a micro-operation does alike in two states that agree on
the data it reads. Of the hidden registers it reads BR alone before writing it, in WRITE_BR_ARG0; every sequence that
does so has written BR in INC_AT_ARG0 before.
-/

namespace Sys2Proof.Machine

/-! ### Flows side by side -/

/-- Two operations end alike: both go on, in states that `go` relates, or both raise, in states that `stop` relates,
or both miss an argument. -/
inductive Flow.Relates (go stop : State → State → Prop) : Flow → Flow → Prop where
  | go {s s' : State} (h : go s s') : Flow.Relates go stop (.go s) (.go s')
  | raised {s s' : State} (h : stop s s') : Flow.Relates go stop (.raised s) (.raised s')
  | noArgument (i j : Nat) : Flow.Relates go stop (.noArgument i) (.noArgument j)

theorem Flow.relates_andThen {f f' : Flow} {k k' : State → Flow} {mid go stop : State → State → Prop}
    (hf : Flow.Relates mid stop f f') (hk : ∀ s s', mid s s' → Flow.Relates go stop (k s) (k' s')) :
    Flow.Relates go stop (f.andThen k) (f'.andThen k') := by
  cases hf with
  | go h => exact hk _ _ h
  | raised h => exact .raised h
  | noArgument i j => exact .noArgument i j

/-- Where one of two such operations answers a next state the other does, and the two states are related. -/
theorem Flow.Relates.exists_outcome {f f' : Flow} {go stop : State → State → Prop} {t : State}
    (hf : Flow.Relates go stop f f') (h : f.outcome = .next t) :
    ∃ t', f'.outcome = .next t' ∧ (go t t' ∨ stop t t') := by
  cases hf with
  | go hgo => cases h; exact ⟨_, rfl, .inl hgo⟩
  | raised hstop => cases h; exact ⟨_, rfl, .inr hstop⟩
  | noArgument i j => cases h

/-- A relation for the sequence still to run, kept by each pair of invocations that go on, holds at the end. -/
theorem runSequence_relates {R : List MicroOp → State → State → Prop} {stop : State → State → Prop}
    (hop : ∀ op ops s s', R (op :: ops) s s' → Flow.Relates (R ops) stop (invoke op s) (invoke op s'))
    {ops : List MicroOp} {s s' : State} (h : R ops s s') :
    Flow.Relates (R []) stop (runSequence ops s) (runSequence ops s') := by
  induction ops generalizing s s' with
  | nil => exact .go h
  | cons op ops ih => exact Flow.relates_andThen (hop op ops s s' h) fun _ _ ht => ih ht

/-! ### What a micro-operation reads -/

/-- s and s' agree on the data that micro-operations read: on BR where `br` says so, and on ALU and DA, which no
micro-operation reads before writing them, where `latches` says so. STATUS, the counters and the rest are no data. -/
structure SameData (br latches : Bool) (s s' : State) : Prop where
  acc : s.acc = s'.acc
  mem : s.mem = s'.mem
  pc : s.pc = s'.pc
  args : s.args = s'.args
  queue : s.queue = s'.queue
  output : s.output = s'.output
  size : s.size = s'.size
  remConvention : s.config.remConvention = s'.config.remConvention
  unbackedCellFaults : s.config.unbackedCellFaults = s'.config.unbackedCellFaults
  br : br = true → s.br = s'.br
  alu : latches = true → s.alu = s'.alu
  da : latches = true → s.da = s'.da

/-- Both states are raised stops of one cause, with the same data. -/
structure RaisedAlike (br latches : Bool) (s s' : State) : Prop where
  data : SameData br latches s s'
  cause : ∃ c, s.status = .stopped (s.outcomeOf c) ∧ s'.status = .stopped (s'.outcomeOf c)

section
variable {br latches : Bool} {s s' : State}

theorem SameData.cell (h : SameData br latches s s') (a : Int) : s.cell a = s'.cell a :=
  congrArg (Memory.read · a.toNat) h.mem

theorem SameData.storeCell (h : SameData br latches s s') (a v : Int) : s.storeCell a v = s'.storeCell a v :=
  congrArg (Memory.write · a.toNat v) h.mem

theorem SameData.backed (h : SameData br latches s s') (a : Int) : s.backed a = s'.backed a := by
  unfold State.backed isBacked cellCountOf
  rw [h.size, h.unbackedCellFaults]

theorem SameData.inLatchRange (h : SameData br latches s s') (a : Int) :
    inLatchRange s.size a = inLatchRange s'.size a := congrArg (Machine.inLatchRange · a) h.size

theorem SameData.latchDa (h : SameData br latches s s') (a : Int) :
    SameData br latches { s with da := a } { s' with da := a } := { h with da := fun _ => rfl }

theorem SameData.raisedAlike (h : SameData br latches s s') (c : StopCause) {go : State → State → Prop} :
    Flow.Relates go (RaisedAlike br latches) (.raised (s.stopWith c)) (.raised (s'.stopWith c)) :=
  .raised ⟨{ h with }, c, rfl, rfl⟩

theorem withArg_relates {i : Nat} {k k' : Int → Flow} {go stop : State → State → Prop} (hargs : s.args = s'.args)
    (hk : ∀ a, Flow.Relates go stop (k a) (k' a)) : Flow.Relates go stop (withArg i k s) (withArg i k' s') := by
  unfold withArg
  rw [← hargs]
  cases s.args[i]? with
  | none => exact .noArgument i i
  | some a => exact hk a

/-- Both accesses have the same of the three outcomes, so only what follows at a backed cell is left to show. -/
theorem atCell_relates {a : Int} {k k' : State → Flow} {go : State → State → Prop}
    (h : SameData br latches s s')
    (hk : SameData br latches { s with da := a } { s' with da := a } →
      Flow.Relates go (RaisedAlike br latches) (k { s with da := a }) (k' { s' with da := a })) :
    Flow.Relates go (RaisedAlike br latches) (atCell a s k) (atCell a s' k') := by
  unfold atCell
  rw [← h.inLatchRange a, ← h.backed a]
  cases inLatchRange s.size a
  case false => exact h.raisedAlike _
  case true =>
    cases s.backed a
    case false => exact (h.latchDa a).raisedAlike _
    case true => exact hk (h.latchDa a)

/-- Whether BR is known to agree after a micro-operation: INC_AT_ARG0 alone writes it (41_microops R94). -/
def brKnownAfter (br : Bool) : MicroOp → Bool
  | .incAtArg0 => true
  | _ => br

/-- A micro-operation does alike in two states with the same data, if it finds the same BR where it reads BR. -/
theorem perform_relates (op : MicroOp) (h : SameData br latches s s') (hbr : op = .writeBrArg0 → br = true) :
    Flow.Relates (SameData (brKnownAfter br op) latches) (RaisedAlike br latches) (perform op s) (perform op s') := by
  cases op
  case readArg0 =>
    rw [perform_readArg0, perform_readArg0]
    exact withArg_relates h.args fun a => atCell_relates h fun hu => .go { hu with acc := h.cell a }
  case writeFromInput =>
    rw [perform_writeFromInput, perform_writeFromInput, ← h.queue]
    cases s.queue with
    | nil => exact h.raisedAlike _
    | cons c rest =>
      cases hc : isCharCode (c : Int) with
      | false =>
        simp only [hc]
        have hpop : SameData br latches { s with queue := rest } { s' with queue := rest } := { h with queue := rfl }
        exact hpop.raisedAlike _
      | true =>
        simp only [hc, if_true]
        have hpop : SameData br latches { s with queue := rest, acc := (c : Int) }
            { s' with queue := rest, acc := (c : Int) } := { h with queue := rfl, acc := rfl }
        exact withArg_relates h.args fun a => atCell_relates hpop fun hu => .go { hu with mem := h.storeCell a c }
  case readIndirect =>
    rw [perform_readIndirect, perform_readIndirect, ← h.acc]
    exact atCell_relates h fun hu => .go { hu with acc := h.cell _ }
  case writeArg1 =>
    rw [perform_writeArg1, perform_writeArg1, ← h.acc]
    exact withArg_relates h.args fun a => atCell_relates h fun hu => .go { hu with mem := h.storeCell a _ }
  case writeArg0 =>
    rw [perform_writeArg0, perform_writeArg0, ← h.acc]
    exact withArg_relates h.args fun a => atCell_relates h fun hu => .go { hu with mem := h.storeCell a _ }
  case writeBrArg0 =>
    rw [perform_writeBrArg0, perform_writeBrArg0, ← h.br (hbr rfl)]
    exact withArg_relates h.args fun a => atCell_relates h fun hu => .go { hu with mem := h.storeCell a _ }
  case aluCmp =>
    rw [perform_aluCmp, perform_aluCmp, ← h.acc]
    refine withArg_relates h.args fun a => atCell_relates h fun hu => .go ?_
    rw [h.cell a]
    exact { hu with acc := rfl, alu := fun _ => rfl }
  case aluRem =>
    rw [perform_aluRem, perform_aluRem, ← h.acc, ← h.remConvention]
    refine withArg_relates h.args fun a => atCell_relates h fun hu => ?_
    rw [h.cell a]
    by_cases hz : s'.cell a = 0
    · rw [if_pos hz, if_pos hz]
      exact hu.raisedAlike _
    · rw [if_neg hz, if_neg hz]
      exact .go { hu with acc := rfl, alu := fun _ => rfl }
  case aluAdd =>
    rw [perform_aluAdd, perform_aluAdd, ← h.acc]
    refine withArg_relates h.args fun a => atCell_relates h fun hu => .go ?_
    rw [h.cell a]
    exact { hu with acc := rfl, alu := fun _ => rfl }
  case incAtArg0 =>
    rw [perform_incAtArg0, perform_incAtArg0]
    refine withArg_relates h.args fun a => atCell_relates h fun hu => .go ?_
    rw [h.cell a]
    exact { hu with br := fun _ => rfl, alu := fun _ => rfl }
  case outNum =>
    rw [perform_outNum, perform_outNum]
    exact .go { h with output := by rw [h.acc, h.output] }
  case outChar =>
    rw [perform_outChar, perform_outChar, h.acc]
    cases isCharCode s'.acc with
    | false => exact h.raisedAlike _
    | true => exact .go { h with acc := rfl, output := by rw [h.output] }
  case nextPc =>
    rw [perform_nextPc, perform_nextPc, ← h.pc]
    exact .go { h with pc := rfl }
  case jump =>
    rw [perform_jump, perform_jump]
    exact withArg_relates h.args fun _ => .go { h with pc := rfl }
  case halt =>
    rw [perform_halt, perform_halt]
    exact .go { h with }
  case branchIfZero =>
    rw [perform_branchIfZero, perform_branchIfZero]
    by_cases hz : s.acc = 0
    · rw [if_pos hz, if_pos (h.acc ▸ hz)]
      exact withArg_relates h.args fun _ => .go { h with pc := rfl }
    · rw [if_neg hz, if_neg (h.acc ▸ hz)]
      exact .go { h with pc := congrArg (· + 1) h.pc }

/-- Two invocations side by side, from what the micro-operation does between their ticks. -/
theorem invoke_relates {op : MicroOp} {go stop : State → State → Prop}
    (h : SameData br latches s.tickBefore s'.tickBefore) (hbr : op = .writeBrArg0 → br = true)
    (hgo : ∀ t t', SameData (brKnownAfter br op) latches t t' → SameControl s.tickBefore t →
      SameControl s'.tickBefore t' → t.status = statusAfter op s → t'.status = statusAfter op s' →
      go t.tickAfter.upcNext t'.tickAfter.upcNext)
    (hstop : ∀ t t', RaisedAlike br latches t t' → SameControl s.tickBefore t → SameControl s'.tickBefore t' →
      stop t t') :
    Flow.Relates go stop (invoke op s) (invoke op s') := by
  have hp := perform_relates op h hbr
  have hc := perform_control op s.tickBefore
  have hc' := perform_control op s'.tickBefore
  unfold invoke
  generalize perform op s.tickBefore = f at hp hc ⊢
  generalize perform op s'.tickBefore = f' at hp hc' ⊢
  cases hp with
  | go hd => exact .go (hgo _ _ hd hc.1 hc'.1 hc.2 hc'.2)
  | raised hd => exact .raised (hstop _ _ hd hc.1 hc'.1)
  | noArgument i j => exact .noArgument i j

end

theorem statusAfter_congr {s s' : State} (op : MicroOp) (h : s.status = s'.status) :
    statusAfter op s = statusAfter op s' := by rw [statusAfter, statusAfter, h]

/-! ### Hidden registers -/

/-- Every read of BR in a sequence comes after a write of BR, or after BR was known. -/
def brWrittenBeforeRead : Bool → List MicroOp → Bool
  | _, [] => true
  | br, op :: ops => (decide (op ≠ .writeBrArg0) || br) && brWrittenBeforeRead (brKnownAfter br op) ops

theorem brWrittenBeforeRead_microcode (o : Opcode) : brWrittenBeforeRead false (microcode o) = true := by
  cases o <;> rfl

/-- Inside an instruction, before the rest of its sequence: the states agree on all that a later instruction can
observe, on ARGS, and on BR where the rest may read it before writing it. -/
structure SameBesidesHidden (ops : List MicroOp) (s s' : State) : Prop extends Claims.SameObservable s s' where
  args : s.args = s'.args
  br : ∃ br, brWrittenBeforeRead br ops = true ∧ (br = true → s.br = s'.br)

/-- Observable agreement after an operation, from that before it and the data it leaves. -/
theorem SameData.sameObservable {br latches : Bool} {s s' t t' : State} (h : SameData br latches t t')
    (hs : Claims.SameObservable s s') (hc : SameControl s t) (hc' : SameControl s' t') (hst : t.status = t'.status) :
    Claims.SameObservable t t' :=
  { h with
    tc := hc.tc.trans (hs.tc.trans hc'.tc.symm)
    ic := hc.ic.trans (hs.ic.trans hc'.ic.symm)
    status := hst
    program := hc.program.trans (hs.program.trans hc'.program.symm)
    config := hc.config.trans (hs.config.trans hc'.config.symm) }

theorem sameObservable_tickBefore {s s' : State} (h : Claims.SameObservable s s') :
    Claims.SameObservable s.tickBefore s'.tickBefore :=
  { h with tc := by rw [State.tickBefore_tc, State.tickBefore_tc, h.tc, h.config] }

theorem sameObservable_afterInvoke {s s' : State} (h : Claims.SameObservable s s') :
    Claims.SameObservable s.tickAfter.upcNext s'.tickAfter.upcNext :=
  { h with
    tc := by rw [State.upcNext_tc, State.upcNext_tc, State.tickAfter_tc, State.tickAfter_tc, h.tc, h.config, h.status] }

/-- Raised stops of one cause with the same PC, TC and IC are the same outcome (60_exceptions R131). -/
theorem outcomeOf_congr {s s' : State} (hpc : s.pc = s'.pc) (htc : s.tc = s'.tc) (hic : s.ic = s'.ic)
    (c : StopCause) : s.outcomeOf c = s'.outcomeOf c := by
  cases c with
  | inputExhausted => rfl
  | fault c => simp [hpc, htc, hic]

theorem invoke_sameBesidesHidden (op : MicroOp) (ops : List MicroOp) (s s' : State)
    (h : SameBesidesHidden (op :: ops) s s') :
    Flow.Relates (SameBesidesHidden ops) Claims.SameObservable (invoke op s) (invoke op s') := by
  obtain ⟨hobs, hargs, br, hready, hbr⟩ := h
  simp only [brWrittenBeforeRead, Bool.and_eq_true, Bool.or_eq_true, decide_eq_true_eq] at hready
  obtain ⟨hread, hready⟩ := hready
  have hobs := sameObservable_tickBefore hobs
  have hdata : SameData br false s.tickBefore s'.tickBefore :=
    { hobs with
      args := hargs
      br := hbr
      remConvention := congrArg Config.remConvention hobs.config
      unbackedCellFaults := congrArg Config.unbackedCellFaults hobs.config
      alu := nofun
      da := nofun }
  refine invoke_relates hdata (fun hop => hread.resolve_left (not_not.2 hop)) (fun t t' hd hc hc' hst hst' => ?_)
    (fun t t' hd hc hc' => ?_)
  · have hstatus : t.status = t'.status := hst.trans ((statusAfter_congr op hobs.status).trans hst'.symm)
    exact { sameObservable_afterInvoke (hd.sameObservable hobs hc hc' hstatus) with
      args := hd.args
      br := ⟨_, hready, hd.br⟩ }
  · obtain ⟨c, hst, hst'⟩ := hd.cause
    refine hd.data.sameObservable hobs hc hc' ?_
    rw [hst, hst', outcomeOf_congr hd.data.pc (hc.tc.trans (hobs.tc.trans hc'.tc.symm))
      (hc.ic.trans (hobs.ic.trans hc'.ic.symm))]

/-- An instruction takes states that agree on all that can be observed to such states. -/
theorem exec_sameObservable {i : Instr} {s s' t : State} (hobs : Claims.SameObservable s s') (h : exec i s = .next t) :
    ∃ t', exec i s' = .next t' ∧ Claims.SameObservable t t' := by
  rw [exec_eq] at h
  have hlatched : SameBesidesHidden (microcode i.opcode) (s.latchInstr i.opcode i.args)
      (s'.latchInstr i.opcode i.args) :=
    { hobs with args := rfl, br := ⟨false, brWrittenBeforeRead_microcode _, nofun⟩ }
  obtain ⟨t', ht', hend | hstop⟩ := (runSequence_relates invoke_sameBesidesHidden hlatched).exists_outcome h
  · exact ⟨t', (exec_eq i s').trans ht', hend.toSameObservable⟩
  · exact ⟨t', (exec_eq i s').trans ht', hstop⟩

theorem sameObservable_countInstruction {s s' : State} (h : Claims.SameObservable s s') :
    Claims.SameObservable s.countInstruction s'.countInstruction := { h with ic := congrArg (· + 1) h.ic }

theorem slotAtPc_congr {s s' : State} (h : Claims.SameObservable s s') : s.slotAtPc = s'.slotAtPc := by
  unfold State.slotAtPc
  rw [h.pc, h.program]

/-- Settles O47: both states fetch the same slot, and inside the instruction every read of a hidden register comes
after a write of it. -/
theorem hiddenRegistersAreNeverObserved : Obligations.HiddenRegistersAreNeverObserved := by
  intro s s' t hobs h
  obtain ⟨hrun, ⟨hslot, rfl⟩ | ⟨r, i, hslot, hdec, hexec⟩⟩ := step_cases h
  all_goals
    have hrun' : s'.status = .running := hobs.status ▸ hrun
    have hcount := sameObservable_countInstruction hobs
    rw [slotAtPc_congr hobs] at hslot
  · refine ⟨_, step_fetchFault hrun' hslot, { hcount with status := ?_ }⟩
    rw [hobs.pc, State.stopWith_status, State.stopWith_status, outcomeOf_congr hcount.pc hcount.tc hcount.ic]
  · rw [step_decoded hrun' hslot hdec]
    exact exec_sameObservable hcount hexec

/-! ### The tick parameter -/

/-- u is s with TICK_AT_INVOCATION false for true: the same but for that, TC and STATUS. -/
structure SameButTicks (s u : State) : Prop extends SameData true true s u where
  program : s.program = u.program
  ir : s.ir = u.ir
  upc : s.upc = u.upc
  ic : s.ic = u.ic
  atInvocation : s.config.tickAtInvocation = true
  config : u.config = { s.config with tickAtInvocation := false }

theorem SameButTicks.eq {s u : State} (h : SameButTicks s u) :
    { u with tc := s.tc, status := s.status, config := s.config } = s := by
  cases s
  cases u
  rw [State.mk.injEq]
  exact ⟨h.acc.symm, (h.br rfl).symm, (h.alu rfl).symm, (h.da rfl).symm, h.mem.symm, h.pc.symm, h.ir.symm,
    h.args.symm, h.upc.symm, rfl, h.ic.symm, h.queue.symm, h.output.symm, rfl, h.program.symm, h.size.symm, rfl⟩

theorem SameButTicks.of_sameControl {s u t v : State} (h : SameButTicks s u) (hd : SameData true true t v)
    (hc : SameControl s t) (hc' : SameControl u v) : SameButTicks t v :=
  { hd with
    program := hc.program.trans (h.program.trans hc'.program.symm)
    ir := hc.ir.trans (h.ir.trans hc'.ir.symm)
    upc := hc.upc.trans (h.upc.trans hc'.upc.symm)
    ic := hc.ic.trans (h.ic.trans hc'.ic.symm)
    atInvocation := hc.config ▸ h.atInvocation
    config := by rw [hc'.config, hc.config, h.config] }

/-- Before the rest of a sequence, the same run under both values of TICK_AT_INVOCATION: TC is the same while it runs,
and 1 apart where it has halted, with nothing left to run. -/
structure SameRunRetimed (ops : List MicroOp) (s u : State) : Prop extends SameButTicks s u where
  status : s.status = u.status
  haltLast : .halt ∉ ops.dropLast
  ticks : (s.status = .running ∧ u.tc = s.tc) ∨ (s.status = .stopped .halted ∧ u.tc + 1 = s.tc ∧ ops = [])

/-- Raised stops of one cause, 1 tick apart. -/
structure SameStopRetimed (s u : State) : Prop extends SameButTicks s u where
  ticks : u.tc + 1 = s.tc
  cause : ∃ c, s.status = .stopped (s.outcomeOf c) ∧ u.status = .stopped (u.outcomeOf c)

theorem halt_notMem_dropLast_microcode (o : Opcode) : .halt ∉ (microcode o).dropLast :=
  fun hmem => nomatch not_endsSequence_of_mem_dropLast_microcode o _ hmem

/-- A sequence with HALT at its end only: nothing follows a HALT, and the rest has HALT at its end only. -/
theorem haltLast_cons {op : MicroOp} {ops : List MicroOp} (h : .halt ∉ (op :: ops).dropLast) :
    (op = .halt → ops = []) ∧ .halt ∉ ops.dropLast := by
  cases ops with
  | nil => simp
  | cons o ops =>
    rw [List.dropLast_cons_cons, List.mem_cons, not_or] at h
    exact ⟨fun hop => absurd hop.symm h.1, h.2⟩

theorem invoke_sameRunRetimed (op : MicroOp) (ops : List MicroOp) (s u : State)
    (h : SameRunRetimed (op :: ops) s u) :
    Flow.Relates (SameRunRetimed ops) SameStopRetimed (invoke op s) (invoke op u) := by
  obtain ⟨hs, hstatus, hlast, ⟨hrun, htc⟩ | ⟨-, -, hnil⟩⟩ := h
  case inr => exact absurd hnil (List.cons_ne_nil _ _)
  obtain ⟨hhalt, hlast⟩ := haltLast_cons hlast
  have hbefore : SameButTicks s.tickBefore u.tickBefore := { hs with }
  have hbr : brKnownAfter true op = true := by cases op <;> rfl
  refine invoke_relates hbefore.toSameData (fun _ => rfl) (fun t v hd hc hc' hst hst' => ?_)
    (fun t v hd hc hc' => ?_)
  · rw [hbr] at hd
    have ht := hbefore.of_sameControl hd hc hc'
    have htcGo : t.tickAfter.upcNext.tc = s.tc + 1 := by simp [ht.atInvocation, hc.tc, hs.atInvocation]
    have htcGo' : v.tickAfter.upcNext.tc = s.tc + if v.status = .running then 1 else 0 := by
      simp [ht.config, hc'.tc, hs.config, htc]
    refine { ht with
      upc := congrArg (· + 1) ht.upc
      status := hst.trans ((statusAfter_congr op hstatus).trans hst'.symm)
      haltLast := hlast
      ticks := ?_ }
    rw [htcGo, htcGo', hst']
    by_cases hop : op = .halt
    · exact .inr ⟨hst.trans (if_pos hop), by simp [statusAfter, hop], hhalt hop⟩
    · exact .inl ⟨hst.trans ((if_neg hop).trans hrun), by simp [statusAfter, hop, ← hstatus, hrun]⟩
  · exact { hbefore.of_sameControl hd.data hc hc' with
      ticks := by simp [hc.tc, hc'.tc, hs.atInvocation, hs.config, htc]
      cause := hd.cause }

/-- The parameter does not matter before the first micro-operation. -/
theorem sameRunRetimed_latched (i : Instr) {s : State} (hrun : s.status = .running) :
    SameRunRetimed (microcode i.opcode)
      (State.latchInstr { s with config := { s.config with tickAtInvocation := true } } i.opcode i.args)
      (State.latchInstr { s with config := { s.config with tickAtInvocation := false } } i.opcode i.args) :=
  have hdata : SameData true true
      (State.latchInstr { s with config := { s.config with tickAtInvocation := true } } i.opcode i.args)
      (State.latchInstr { s with config := { s.config with tickAtInvocation := false } } i.opcode i.args) := by
    constructor <;> intros <;> rfl
  { hdata with
    program := rfl
    ir := rfl
    upc := rfl
    ic := rfl
    atInvocation := rfl
    config := rfl
    status := rfl
    haltLast := halt_notMem_dropLast_microcode _
    ticks := .inl ⟨hrun, rfl⟩ }

/-- The same instruction under both values of TICK_AT_INVOCATION ends alike. -/
theorem exec_retimed {i : Instr} {s t u : State} (hrun : s.status = .running)
    (ht : exec i { s with config := { s.config with tickAtInvocation := true } } = .next t)
    (hu : exec i { s with config := { s.config with tickAtInvocation := false } } = .next u) :
    SameRunRetimed [] t u ∨ SameStopRetimed t u := by
  rw [exec_eq] at ht hu
  obtain ⟨u', hu', hrel⟩ :=
    (runSequence_relates invoke_sameRunRetimed (sameRunRetimed_latched i hrun)).exists_outcome ht
  obtain rfl : u' = u := by
    rw [runInstruction, hu'] at hu
    exact Host.Outcome.next.inj hu
  exact hrel

theorem SameRunRetimed.tc {ops : List MicroOp} {s u : State} (h : SameRunRetimed ops s u) :
    (s.status = .running → u.tc = s.tc) ∧ (s.status ≠ .running → u.tc + 1 = s.tc) := by
  rcases h.ticks with ⟨hrun, htc⟩ | ⟨hhalted, htc, -⟩
  · exact ⟨fun _ => htc, absurd hrun⟩
  · exact ⟨fun hrun => (nomatch hhalted.symm.trans hrun), fun _ => htc⟩

theorem SameRunRetimed.not_fault {ops : List MicroOp} {s u : State} (h : SameRunRetimed ops s u) (r : FaultRecord) :
    s.status ≠ .stopped (.fault r) := by
  rcases h.ticks with ⟨hst, -⟩ | ⟨hst, -, -⟩ <;> simp [hst]

theorem SameStopRetimed.not_running {s u : State} (h : SameStopRetimed s u) : s.status ≠ .running := by
  obtain ⟨c, hst, -⟩ := h.cause
  simp [hst]

theorem SameStopRetimed.fault_status {s u : State} {r : FaultRecord} (h : SameStopRetimed s u)
    (hr : s.status = .stopped (.fault r)) :
    u.status = .stopped (.fault { r with context := { r.context with tc := u.tc } }) := by
  obtain ⟨c, hst, hst'⟩ := h.cause
  cases c with
  | inputExhausted => simp [hst] at hr
  | fault c =>
    simp only [hst, State.outcomeOf_fault, Status.stopped.injEq, StopOutcome.fault.injEq] at hr
    simp [hst', ← hr, h.pc, h.ic]

theorem SameStopRetimed.status_of_not_fault {s u : State} (h : SameStopRetimed s u)
    (hr : ∀ r, s.status ≠ .stopped (.fault r)) : u.status = s.status := by
  obtain ⟨c, hst, hst'⟩ := h.cause
  cases c with
  | inputExhausted => exact hst'.trans hst.symm
  | fault c => exact absurd hst (hr _)

/-- Settles O40: while the instruction runs both count alike, the tick that stops it is counted at its invocation
alone, and the rest of the state is the same. -/
theorem tickParameterChangesOnlyTheStoppingTick : Obligations.TickParameterChangesOnlyTheStoppingTick := by
  intro i s t u hrun ht hu
  rcases exec_retimed hrun ht hu with hend | hstop
  · obtain ⟨hgoes, hstops⟩ := hend.tc
    exact ⟨hgoes, hstops, fun r hr => absurd hr (hend.not_fault r), fun _ => hend.status.symm, hend.eq⟩
  · exact ⟨fun hgoes => absurd hgoes hstop.not_running, fun _ => hstop.ticks, fun _ => hstop.fault_status,
      hstop.status_of_not_fault, hstop.eq⟩

end Sys2Proof.Machine
end

section
/-!
SUPPORT. The control instructions (43_control R114 to R117): each is one micro-operation, and its next state is written
out once; what it keeps and where the next fetch goes follow from that state.
-/

namespace Sys2Proof.Machine

/-! ### Instructions of one micro-operation -/

/-- An instruction whose sequence is one micro-operation that goes on (42_control_unit R104, R107). -/
theorem exec_of_single {i : Instr} {op : MicroOp} {s t : State} (hops : microcode i.opcode = [op])
    (hp : perform op (s.latchInstr i.opcode i.args).tickBefore = .go t) : exec i s = .next t.tickAfter.upcNext := by
  rw [exec_eq, runInstruction, hops, runSequence, invoke, hp]
  rfl

/-- While the machine runs, one tick is counted around an effect on PC, under either value of TICK_AT_INVOCATION
(42_control_unit R107, 93_implementation_defined section 1). -/
theorem State.tickAfter_pc_tickBefore {s : State} (hrun : s.status = .running) (p : Int) :
    State.tickAfter { s.tickBefore with pc := p } = { s with tc := s.tc + 1, pc := p } := by
  cases htick : s.config.tickAtInvocation <;> simp [State.tickAfter, State.tickBefore, htick, hrun]

/-- HALT's tick is counted at its invocation alone (93_implementation_defined section 1). -/
theorem State.tickAfter_halted_tickBefore (s : State) :
    State.tickAfter { s.tickBefore with status := .stopped .halted } =
      { s with tc := s.tc + Claims.stopTicks s 1, status := .stopped .halted } := by
  cases htick : s.config.tickAtInvocation <;> simp [State.tickAfter, State.tickBefore, Claims.stopTicks, htick]

/-- An instruction that is one write of PC (41_microops R98, R100). -/
theorem exec_of_pcWrite {i : Instr} {op : MicroOp} {s : State} {p : Int} (hrun : s.status = .running)
    (hops : microcode i.opcode = [op])
    (hp : perform op (s.latchInstr i.opcode i.args).tickBefore =
      .go { (s.latchInstr i.opcode i.args).tickBefore with pc := p }) :
    exec i s = .next { Claims.fetched s i with upc := 1, tc := s.tc + 1, pc := p } := by
  have hlatched : (s.latchInstr i.opcode i.args).status = .running := hrun
  rw [exec_of_single hops hp, State.tickAfter_pc_tickBefore hlatched]
  rfl

/-! ### The three instructions -/

theorem exec_hlt (s : State) :
    exec .hlt s = .next { Claims.fetched s .hlt with
      upc := 1, tc := s.tc + Claims.stopTicks s 1, status := .stopped .halted } := by
  rw [exec_of_single (i := .hlt) rfl (perform_halt _), State.tickAfter_halted_tickBefore]
  rfl

theorem exec_jmp {s : State} (a0 : Int) (hrun : s.status = .running) :
    exec (.jmp a0) s = .next { Claims.fetched s (.jmp a0) with upc := 1, tc := s.tc + 1, pc := a0 } :=
  exec_of_pcWrite hrun rfl (perform_jump _)

theorem exec_branchEq_taken {s : State} (a0 : Int) (hrun : s.status = .running) (hz : s.acc = 0) :
    exec (.branchEq a0) s = .next { Claims.fetched s (.branchEq a0) with upc := 1, tc := s.tc + 1, pc := a0 } :=
  exec_of_pcWrite hrun rfl ((perform_branchIfZero _).trans (if_pos hz))

theorem exec_branchEq_notTaken {s : State} (a0 : Int) (hrun : s.status = .running) (hz : s.acc ≠ 0) :
    exec (.branchEq a0) s =
      .next { Claims.fetched s (.branchEq a0) with upc := 1, tc := s.tc + 1, pc := s.pc + 1 } :=
  exec_of_pcWrite hrun rfl ((perform_branchIfZero _).trans (if_neg hz))

/-- What a control instruction writes beside the latched instruction: TC and PC or STATUS (43_control R117). -/
theorem exec_control {i : Instr} {s t : State} (hi : i.opcode ∈ [Opcode.hlt, .jmp, .branchEq])
    (hrun : s.status = .running) (h : exec i s = .next t) :
    ∃ tc pc status, t = { Claims.fetched s i with upc := 1, tc := tc, pc := pc, status := status } ∧
      (i.opcode = .hlt → pc = s.pc) ∧ (i.opcode ≠ .hlt → status = s.status) := by
  cases i with
  | hlt =>
    cases (exec_hlt s).symm.trans h
    exact ⟨_, s.pc, .stopped .halted, rfl, fun _ => rfl, absurd rfl⟩
  | jmp a0 =>
    cases (exec_jmp a0 hrun).symm.trans h
    exact ⟨_, a0, s.status, rfl, nofun, fun _ => rfl⟩
  | branchEq a0 =>
    by_cases hz : s.acc = 0
    · cases (exec_branchEq_taken a0 hrun hz).symm.trans h
      exact ⟨_, a0, s.status, rfl, nofun, fun _ => rfl⟩
    · cases (exec_branchEq_notTaken a0 hrun hz).symm.trans h
      exact ⟨_, s.pc + 1, s.status, rfl, nofun, fun _ => rfl⟩
  | _ => simp [Instr.opcode] at hi

/-! ### The statements -/

/-- Settles O22: the next state differs from the one before in the latched instruction, TC, PC and STATUS alone. -/
theorem controlInstructionsFrame : Obligations.ControlInstructionsFrame := by
  intro i s t hi hrun h
  obtain ⟨tc, pc, status, rfl, hpc, hstatus⟩ := exec_control hi hrun h
  exact ⟨rfl, rfl, rfl, rfl, fun _ => rfl, rfl, rfl, rfl, rfl, rfl, rfl, hpc, hstatus⟩

/-- Settles O10: the step that fetches HLT is its exec with IC counted. -/
theorem hltHalts : Obligations.HltHalts := by
  refine fun s => ⟨rfl, rfl, exec_hlt s, fun hrun hi => ?_⟩
  rw [step_of_instrAtPc hrun hi, exec_hlt]
  exact ⟨_, rfl, rfl, rfl, rfl⟩

/-- Settles O11: the target is written unchecked, and the fetch of the next step checks it. -/
theorem jmpSetsThePc : Obligations.JmpSetsThePc :=
  fun a0 _ hrun => ⟨rfl, rfl, _, exec_jmp a0 hrun, rfl, fun hout => fetchOutsideTheProgramFaults _ hrun hout⟩

/-- Settles O12: ACC decides between the two next states; both run on with the same program, so the next fetch checks
the PC of either. -/
theorem branchEqTestsTheAccumulator : Obligations.BranchEqTestsTheAccumulator := by
  refine fun a0 s hrun => ⟨rfl, rfl, exec_branchEq_taken a0 hrun, exec_branchEq_notTaken a0 hrun, fun t h hout => ?_⟩
  obtain ⟨_, _, _, rfl, -, hstatus⟩ := exec_control (List.mem_of_elem_eq_true rfl) hrun h
  exact fetchOutsideTheProgramFaults _ ((hstatus nofun).trans hrun) hout

end Sys2Proof.Machine
end

section
/-!
SUPPORT. The value in ACC (43_control R118): what each micro-operation leaves there is a function of the ACC before and
of the data it reads; in every sequence those reads precede the writes of memory and of the queue, so the ACC at the end
is that function folded over the sequence, in terms of the state before the instruction.
-/

namespace Sys2Proof.Machine

/-! ### One micro-operation -/

/-- ARGS[i] of an instruction that has it (00_scope R9). -/
def State.arg (s : State) (i : Nat) : Int := s.args.getD i 0

theorem withArg_yields_arg {i : Nat} {s : State} {k : Int → Flow} {go stop : State → Prop}
    (h : (k (s.arg i)).Yields go stop) : (withArg i k s).Yields go stop := by
  unfold State.arg at h
  unfold withArg
  rw [List.getD_eq_getElem?_getD] at h
  cases ha : s.args[i]? with
  | none => trivial
  | some a => rwa [ha] at h

/-- The ACC that a micro-operation leaves where ACC held x, over the other data of s (41_microops R85 to R100). -/
def accOn (s : State) (op : MicroOp) (x : Int) : Int :=
  match op with
  | .readArg0 => s.cell (s.arg 0)
  | .writeFromInput => (s.queue.headD 0 : Nat)
  | .readIndirect => s.cell x
  | .aluCmp => s.cell (s.arg 1) - x
  | .aluRem => remBy s.config.remConvention x (s.cell (s.arg 1))
  | .aluAdd => s.cell (s.arg 1) + x
  | .writeArg1 | .writeArg0 | .writeBrArg0 | .incAtArg0 | .outNum | .outChar | .nextPc | .jump | .halt
  | .branchIfZero => x

/-- The micro-operations that latch ACC. -/
def MicroOp.latchesAcc (op : MicroOp) : Bool :=
  op ∈ [.readArg0, .writeFromInput, .readIndirect, .aluCmp, .aluRem, .aluAdd]

/-- The micro-operations that write memory or take from the queue. -/
def MicroOp.writesStore (op : MicroOp) : Bool := op ∈ [.writeFromInput, .writeArg1, .writeArg0, .writeBrArg0]

theorem accOn_of_not_latchesAcc {op : MicroOp} (h : op.latchesAcc = false) (s : State) (x : Int) :
    accOn s op x = x := by
  cases op with
  | readArg0 | writeFromInput | readIndirect | aluCmp | aluRem | aluAdd => cases h
  | _ => rfl

/-- The data that decide the ACC of a micro-operation: memory, the queue, the arguments and the parameters. -/
structure SameAccReads (s t : State) : Prop where
  mem : t.mem = s.mem
  queue : t.queue = s.queue
  args : t.args = s.args
  config : t.config = s.config

theorem SameAccReads.accOn_eq {s t : State} (h : SameAccReads s t) (op : MicroOp) (x : Int) :
    accOn t op x = accOn s op x := by
  cases op <;> simp only [accOn, State.cell, State.arg, h.mem, h.queue, h.args, h.config]

theorem perform_acc (op : MicroOp) (s : State) :
    (perform op s).Yields
      (fun t => t.acc = accOn s op s.acc ∧ (op.writesStore = false → t.mem = s.mem ∧ t.queue = s.queue))
      State.Raised := by
  cases op
  case readArg0 =>
    exact perform_readArg0 s ▸ withArg_yields_arg (atCell_yields ⟨rfl, fun _ => ⟨rfl, rfl⟩⟩)
  case writeFromInput =>
    rw [perform_writeFromInput, accOn]
    cases s.queue with
    | nil => exact State.stopWith_raised _ _
    | cons c rest =>
      cases hc : isCharCode (c : Int) with
      | false =>
        simp only [hc]
        exact State.stopWith_raised _ _
      | true =>
        simp only [hc, if_true]
        exact withArg_yields fun _ => atCell_yields ⟨rfl, nofun⟩
  case readIndirect => exact perform_readIndirect s ▸ atCell_yields ⟨rfl, fun _ => ⟨rfl, rfl⟩⟩
  case writeArg1 => exact perform_writeArg1 s ▸ withArg_yields fun _ => atCell_yields ⟨rfl, nofun⟩
  case writeArg0 => exact perform_writeArg0 s ▸ withArg_yields fun _ => atCell_yields ⟨rfl, nofun⟩
  case writeBrArg0 => exact perform_writeBrArg0 s ▸ withArg_yields fun _ => atCell_yields ⟨rfl, nofun⟩
  case aluCmp => exact perform_aluCmp s ▸ withArg_yields_arg (atCell_yields ⟨rfl, fun _ => ⟨rfl, rfl⟩⟩)
  case aluRem =>
    refine perform_aluRem s ▸ withArg_yields_arg (atCell_yields ?_)
    by_cases hz : s.cell (s.arg 1) = 0
    · rw [if_pos hz]
      exact State.stopWith_raised _ _
    · rw [if_neg hz]
      exact ⟨rfl, fun _ => ⟨rfl, rfl⟩⟩
  case aluAdd => exact perform_aluAdd s ▸ withArg_yields_arg (atCell_yields ⟨rfl, fun _ => ⟨rfl, rfl⟩⟩)
  case incAtArg0 => exact perform_incAtArg0 s ▸ withArg_yields fun _ => atCell_yields ⟨rfl, fun _ => ⟨rfl, rfl⟩⟩
  case outNum => exact perform_outNum s ▸ ⟨rfl, fun _ => ⟨rfl, rfl⟩⟩
  case outChar =>
    rw [perform_outChar]
    cases isCharCode s.acc with
    | false => exact State.stopWith_raised _ _
    | true => exact ⟨rfl, fun _ => ⟨rfl, rfl⟩⟩
  case nextPc => exact perform_nextPc s ▸ ⟨rfl, fun _ => ⟨rfl, rfl⟩⟩
  case jump => exact perform_jump s ▸ withArg_yields fun _ => ⟨rfl, fun _ => ⟨rfl, rfl⟩⟩
  case halt => exact perform_halt s ▸ ⟨rfl, fun _ => ⟨rfl, rfl⟩⟩
  case branchIfZero =>
    rw [perform_branchIfZero]
    by_cases hz : s.acc = 0
    · rw [if_pos hz]
      exact withArg_yields fun _ => ⟨rfl, fun _ => ⟨rfl, rfl⟩⟩
    · rw [if_neg hz]
      exact ⟨rfl, fun _ => ⟨rfl, rfl⟩⟩

/-! ### A sequence -/

/-- What is written before a latch of ACC is no memory cell and no queue. -/
abbrev AccLatchesFirst (ops : List MicroOp) : Prop :=
  ops.Pairwise fun op later => op.writesStore = false ∨ later.latchesAcc = false

theorem accLatchesFirst_microcode (o : Opcode) : AccLatchesFirst (microcode o) := by
  cases o <;> decide

/-- At u, the micro-operations still to run bring ACC to v, each by what it would read in s. -/
structure AccHeadsTo (s : State) (v : Int) (ops : List MicroOp) (u : State) : Prop where
  order : AccLatchesFirst ops
  reads : ∀ op ∈ ops, ∀ x, accOn u op x = accOn s op x
  result : ops.foldl (fun x op => accOn s op x) u.acc = v

/-- After an operation, a later one latches what it would have latched before. -/
theorem accOn_after {op later : MicroOp} {s t : State} (hc : SameControl s t)
    (hstore : op.writesStore = false → t.mem = s.mem ∧ t.queue = s.queue)
    (horder : op.writesStore = false ∨ later.latchesAcc = false) (x : Int) : accOn t later x = accOn s later x := by
  rcases horder with hop | hlater
  · obtain ⟨hmem, hqueue⟩ := hstore hop
    exact SameAccReads.accOn_eq ⟨hmem, hqueue, hc.args, hc.config⟩ later x
  · rw [accOn_of_not_latchesAcc hlater, accOn_of_not_latchesAcc hlater]

theorem invoke_accHeadsTo {s : State} {v : Int} (op : MicroOp) (ops : List MicroOp) (u : State)
    (h : AccHeadsTo s v (op :: ops) u) : (invoke op u).Yields (AccHeadsTo s v ops) State.Raised := by
  obtain ⟨horder, hreads, hresult⟩ := h
  obtain ⟨hfirst, hrest⟩ := List.pairwise_cons.1 horder
  have hp := (perform_sameControl op u.tickBefore).and_yields (perform_acc op u.tickBefore)
  unfold invoke
  cases hf : perform op u.tickBefore with
  | noArgument i => trivial
  | raised t =>
    rw [hf] at hp
    exact hp.2
  | go t =>
    rw [hf] at hp
    obtain ⟨hc, hacc, hstore⟩ := hp
    refine ⟨hrest, fun later hmem x => ?_, ?_⟩
    · exact (accOn_after hc hstore (hfirst later hmem) x).trans (hreads later (List.mem_cons_of_mem _ hmem) x)
    · have hnext : t.acc = accOn s op u.acc := hacc.trans (hreads op List.mem_cons_self u.acc)
      rw [State.upcNext_acc, State.tickAfter_acc, hnext]
      exact hresult

/-- The table of the statements is the fold over the ROM's sequence (43_control R118). -/
theorem foldl_accOn_microcode (i : Instr) (s : State) :
    (microcode i.opcode).foldl (fun x op => accOn (s.latchInstr i.opcode i.args) op x) s.acc = Claims.accAfter s i := by
  cases i with
  | remainder a0 a1 => exact remBy_eq_remainderOf s _ _
  | add a0 a1 => exact Int.add_comm _ _
  | _ => rfl

/-- Settles O45: a completing instruction did not raise, so its ACC is where the sequence was heading. -/
theorem accumulatorAfterEachInstruction : Obligations.AccumulatorAfterEachInstruction := by
  intro i s t _ h hcompleted
  rw [exec_eq] at h
  have hstart : AccHeadsTo (s.latchInstr i.opcode i.args) (Claims.accAfter s i) (microcode i.opcode)
      (s.latchInstr i.opcode i.args) :=
    ⟨accLatchesFirst_microcode _, fun _ _ _ => rfl, foldl_accOn_microcode i s⟩
  rcases Flow.yields_of_outcome (runSequence_yields invoke_accHeadsTo hstart) h with hend | hraised
  · exact hend.result
  · exact absurd hcompleted hraised.not_completed

end Sys2Proof.Machine
end

section
/-!
SUPPORT. Micro-operations in sequence (42_control_unit R104, R107): the state before each tick of an instruction, how a
tick that goes on and one that faults at an address leave it; by these the two-address instructions, whose faults are
alike, and the move (44_move R119).
-/

namespace Sys2Proof.Machine

open Claims

/-! ### One tick of an instruction -/

/-- u still runs inside an instruction that began in s, k ticks and k positions of its sequence later. -/
structure AtTick (s : State) (k : Nat) (u : State) : Prop where
  running : u.status = .running
  config : u.config = s.config
  position : u.upc = k
  ticks : u.tc = s.tc + k

theorem exec_eq_fetched (i : Instr) (s : State) :
    exec i s = (runSequence (microcode i.opcode) (fetched s i)).outcome := exec_eq i s

theorem atTick_fetched {s : State} (i : Instr) (hrun : s.status = .running) : AtTick s 0 (fetched s i) :=
  ⟨hrun, rfl, rfl, rfl⟩

/-- The ticks when the next micro-operation has its effect are those of a stop in its tick
(93_implementation_defined section 1). -/
theorem AtTick.tickBefore_eq {s u : State} {k : Nat} (h : AtTick s k u) :
    u.tickBefore = { u with tc := s.tc + stopTicks s (k + 1) } := by
  unfold State.tickBefore stopTicks
  rw [h.ticks, h.config]
  cases s.config.tickAtInvocation <;> rfl

/-- A tick that goes on counts 1, under either value of TICK_AT_INVOCATION. -/
theorem AtTick.invoke_go {s u t : State} {k : Nat} {op : MicroOp} (h : AtTick s k u)
    (hp : perform op u.tickBefore = .go t) (hrun : t.status = .running) :
    invoke op u = .go { t with upc := k + 1, tc := s.tc + (k + 1) } := by
  have hc := perform_sameControl op u.tickBefore
  rw [hp] at hc
  have hupc : t.upc = k := hc.upc.trans h.position
  have htc : t.tc = s.tc + stopTicks s (k + 1) := hc.tc.trans (congrArg State.tc h.tickBefore_eq)
  have hconfig : t.config = s.config := hc.config.trans h.config
  rw [invoke, hp, Flow.andThen_go, State.tickAfter, State.upcNext, hupc, htc, hconfig, hrun, stopTicks]
  cases s.config.tickAtInvocation <;> rfl

theorem AtTick.runSequence_go {s u t : State} {k : Nat} {op : MicroOp} (h : AtTick s k u) (ops : List MicroOp)
    (hp : perform op u.tickBefore = .go t) (hrun : t.status = .running) :
    runSequence (op :: ops) u = runSequence ops { t with upc := k + 1, tc := s.tc + (k + 1) } := by
  rw [runSequence, h.invoke_go hp hrun, Flow.andThen_go]

/-- Every sequence but those of HLT, JMP and BRANCH_EQ ends with NEXT_PC (42_control_unit R103). -/
theorem AtTick.outcome_nextPc {s u : State} {k : Nat} (h : AtTick s k u) :
    (runSequence [.nextPc] u).outcome = .next { u with upc := k + 1, tc := s.tc + (k + 1), pc := u.pc + 1 } := by
  rw [h.runSequence_go [] (perform_nextPc _) h.running]
  rfl

/-! ### A tick that reaches the cell an argument names -/

section AtArg

variable {s u : State} {k i : Nat} {a : Int} {op : MicroOp}

/-- The micro-operation latches argument i and goes on at the cell it names. -/
def MicroOp.AccessesArg (op : MicroOp) (i : Nat) : Prop :=
  ∃ k : State → Int → State → Flow, ∀ s, perform op s = withArg i (fun a => atCell a s (k s a)) s

theorem accessesArg_readArg0 : MicroOp.readArg0.AccessesArg 0 := ⟨_, perform_readArg0⟩
theorem accessesArg_writeArg1 : MicroOp.writeArg1.AccessesArg 1 := ⟨_, perform_writeArg1⟩
theorem accessesArg_aluAdd : MicroOp.aluAdd.AccessesArg 1 := ⟨_, perform_aluAdd⟩

theorem MicroOp.AccessesArg.perform_outside (hop : op.AccessesArg i)
    (harg : s.args[i]? = some a) (hout : ¬ InLatchRange s a) :
    perform op s = .raised (frozen (.dataAddress a) s) := by
  obtain ⟨_, hperform⟩ := hop
  rw [hperform, withArg_of_getElem? _ harg, atCell_of_not_inLatchRange _ hout]

theorem MicroOp.AccessesArg.perform_unbacked (hop : op.AccessesArg i)
    (harg : s.args[i]? = some a) (hbad : Unbacked s a) :
    perform op s = .raised (frozen (.unbackedCell a) { s with da := a }) := by
  obtain ⟨_, hperform⟩ := hop
  rw [hperform, withArg_of_getElem? _ harg, atCell_of_unbacked _ hbad]

/-- The three outcomes of an address leave no other (40_datapath_alu R64, 20_memory R36). -/
theorem usable_or_unbacked_or_outside (s : State) (a : Int) : Usable s a ∨ Unbacked s a ∨ ¬ InLatchRange s a := by
  by_cases hl : InLatchRange s a
  · by_cases hb : s.backed a = true
    · exact .inl ((s.backed_iff a).1 hb)
    · exact .inr (.inl (State.eq_size_of_not_backed (decide_eq_true hl) hb))
  · exact .inr (.inr hl)

theorem perform_readArg0_usable (harg : s.args[0]? = some a) (ha : Usable s a) :
    perform .readArg0 s = .go { s with acc := s.cell a, da := a } := by
  rw [perform_readArg0, withArg_of_getElem? _ harg, atCell_of_usable _ ha]

theorem perform_writeArg1_usable (harg : s.args[1]? = some a) (ha : Usable s a) :
    perform .writeArg1 s = .go { s with da := a, mem := s.storeCell a s.acc } := by
  rw [perform_writeArg1, withArg_of_getElem? _ harg, atCell_of_usable _ ha]

theorem perform_aluAdd_usable (harg : s.args[1]? = some a) (ha : Usable s a) :
    perform .aluAdd s = .go { s with acc := s.cell a + s.acc, alu := s.cell a + s.acc, da := a } := by
  rw [perform_aluAdd, withArg_of_getElem? _ harg, atCell_of_usable _ ha]

theorem AtTick.runSequence_outside (h : AtTick s k u) (ops : List MicroOp) (hop : op.AccessesArg i)
    (harg : u.args[i]? = some a) (hout : ¬ InLatchRange u a) :
    runSequence (op :: ops) u =
      .raised (frozen (.dataAddress a) { u with tc := s.tc + stopTicks s (k + 1) }) := by
  rw [runSequence, invoke, hop.perform_outside (s := u.tickBefore) harg hout, h.tickBefore_eq]
  rfl

theorem AtTick.runSequence_unbacked (h : AtTick s k u) (ops : List MicroOp) (hop : op.AccessesArg i)
    (harg : u.args[i]? = some a) (hbad : Unbacked u a) :
    runSequence (op :: ops) u =
      .raised (frozen (.unbackedCell a) { u with tc := s.tc + stopTicks s (k + 1), da := a }) := by
  rw [runSequence, invoke, hop.perform_unbacked (s := u.tickBefore) harg hbad, h.tickBefore_eq]
  rfl

/-- The last two ticks of MOV and ADD: ACC is stored in the cell, and PC moves on. -/
theorem AtTick.outcome_writeArg1_nextPc (h : AtTick s k u) (harg : u.args[1]? = some a) (ha : Usable u a) :
    (runSequence [.writeArg1, .nextPc] u).outcome =
      .next { u with
        upc := k + 2, tc := s.tc + (k + 2), da := a, mem := u.storeCell a u.acc, pc := u.pc + 1 } := by
  rw [h.runSequence_go _ (perform_writeArg1_usable harg ha) h.running]
  exact AtTick.outcome_nextPc ⟨h.running, h.config, rfl, rfl⟩

end AtArg

/-! ### Instructions that begin with READ_ARG0 -/

section ReadsArg0

variable {i : Instr} {a0 : Int} {s : State} {ops : List MicroOp}

theorem exec_readArg0_outside (hops : microcode i.opcode = .readArg0 :: ops) (harg : i.args[0]? = some a0)
    (hrun : s.status = .running) (hout : ¬ InLatchRange s a0) :
    exec i s = .next (frozen (.dataAddress a0) { fetched s i with tc := s.tc + stopTicks s 1 }) := by
  rw [exec_eq_fetched, hops, (atTick_fetched i hrun).runSequence_outside ops accessesArg_readArg0 harg hout]
  rfl

theorem exec_readArg0_unbacked (hops : microcode i.opcode = .readArg0 :: ops) (harg : i.args[0]? = some a0)
    (hrun : s.status = .running) (hbad : Unbacked s a0) :
    exec i s = .next (frozen (.unbackedCell a0) { fetched s i with tc := s.tc + stopTicks s 1, da := a0 }) := by
  rw [exec_eq_fetched, hops, (atTick_fetched i hrun).runSequence_unbacked ops accessesArg_readArg0 harg hbad]
  rfl

/-- The state after the first tick of an instruction that has read M[a0]. -/
def afterReadArg0 (s : State) (i : Instr) (a0 : Int) : State :=
  { fetched s i with upc := 1, tc := s.tc + 1, acc := s.cell a0, da := a0 }

theorem atTick_afterReadArg0 (i : Instr) (a0 : Int) (hrun : s.status = .running) :
    AtTick s 1 (afterReadArg0 s i a0) := ⟨hrun, rfl, rfl, rfl⟩

theorem exec_readArg0_usable (hops : microcode i.opcode = .readArg0 :: ops) (harg : i.args[0]? = some a0)
    (hrun : s.status = .running) (h0 : Usable s a0) :
    exec i s = (runSequence ops (afterReadArg0 s i a0)).outcome := by
  rw [exec_eq_fetched, hops, (atTick_fetched i hrun).runSequence_go ops (perform_readArg0_usable harg h0) hrun]
  rfl

end ReadsArg0

/-! ### Two-address instructions: M[a0] is read, then cell a1 is reached -/

/-- The instruction reads M[a0], then performs op, which goes on at cell a1, then ops. -/
structure TwoAddress (i : Instr) (a0 a1 : Int) (op : MicroOp) (ops : List MicroOp) : Prop where
  args_eq : i.args = [a0, a1]
  sequence_eq : microcode i.opcode = .readArg0 :: op :: ops
  access : op.AccessesArg 1

theorem twoAddress_mov (a0 a1 : Int) : TwoAddress (.mov a0 a1) a0 a1 .writeArg1 [.nextPc] :=
  ⟨rfl, rfl, accessesArg_writeArg1⟩

theorem twoAddress_add (a0 a1 : Int) : TwoAddress (.add a0 a1) a0 a1 .aluAdd [.writeArg1, .nextPc] :=
  ⟨rfl, rfl, accessesArg_aluAdd⟩

section TwoAddress

variable {i : Instr} {a0 a1 : Int} {op : MicroOp} {ops : List MicroOp} {s t : State}

theorem TwoAddress.arg0 (hi : TwoAddress i a0 a1 op ops) : i.args[0]? = some a0 := by rw [hi.args_eq]; rfl

theorem TwoAddress.arg1 (hi : TwoAddress i a0 a1 op ops) : i.args[1]? = some a1 := by rw [hi.args_eq]; rfl

theorem TwoAddress.exec_second_outside (hi : TwoAddress i a0 a1 op ops) (hrun : s.status = .running)
    (h0 : Usable s a0) (hout : ¬ InLatchRange s a1) :
    exec i s = .next (frozen (.dataAddress a1) { fetched s i with
      upc := 1, tc := s.tc + stopTicks s 2, acc := s.cell a0, da := a0 }) := by
  rw [exec_readArg0_usable hi.sequence_eq hi.arg0 hrun h0,
    (atTick_afterReadArg0 i a0 hrun).runSequence_outside ops hi.access hi.arg1 hout]
  rfl

theorem TwoAddress.exec_second_unbacked (hi : TwoAddress i a0 a1 op ops) (hrun : s.status = .running)
    (h0 : Usable s a0) (hbad : Unbacked s a1) :
    exec i s = .next (frozen (.unbackedCell a1) { fetched s i with
      upc := 1, tc := s.tc + stopTicks s 2, acc := s.cell a0, da := a1 }) := by
  rw [exec_readArg0_usable hi.sequence_eq hi.arg0 hrun h0,
    (atTick_afterReadArg0 i a0 hrun).runSequence_unbacked ops hi.access hi.arg1 hbad]
  rfl

/-- The address faults of every two-address instruction, in the form of the statements. -/
theorem TwoAddress.exec_faults (hi : TwoAddress i a0 a1 op ops) (hrun : s.status = .running) :
    (¬ InLatchRange s a0 → exec i s =
      .next (frozen (.dataAddress a0) { fetched s i with tc := s.tc + stopTicks s 1 })) ∧
    (Unbacked s a0 → exec i s =
      .next (frozen (.unbackedCell a0) { fetched s i with tc := s.tc + stopTicks s 1, da := a0 })) ∧
    (Usable s a0 → ¬ InLatchRange s a1 → exec i s =
      .next (frozen (.dataAddress a1) { fetched s i with
        upc := 1, tc := s.tc + stopTicks s 2, acc := s.cell a0, da := a0 })) ∧
    (Usable s a0 → Unbacked s a1 → exec i s =
      .next (frozen (.unbackedCell a1) { fetched s i with
        upc := 1, tc := s.tc + stopTicks s 2, acc := s.cell a0, da := a1 })) :=
  ⟨exec_readArg0_outside hi.sequence_eq hi.arg0 hrun, exec_readArg0_unbacked hi.sequence_eq hi.arg0 hrun,
    hi.exec_second_outside hrun, hi.exec_second_unbacked hrun⟩

/-- i has stopped in a fault with no more than UPC, TC, ACC and DA written since its fetch. -/
def FaultsAtAddress (s : State) (i : Instr) (t : State) : Prop :=
  ∃ c upc tc acc da, t = frozen c { fetched s i with upc := upc, tc := tc, acc := acc, da := da }

/-- Both cells are usable, or the instruction faults at an address. -/
theorem TwoAddress.exec_cases (hi : TwoAddress i a0 a1 op ops) (hrun : s.status = .running)
    (h : exec i s = .next t) : (Usable s a0 ∧ Usable s a1) ∨ FaultsAtAddress s i t := by
  obtain ⟨hout0, hbad0, hout1, hbad1⟩ := hi.exec_faults hrun
  have hfault {u : State} (hu : exec i s = .next u) (hf : FaultsAtAddress s i u) : FaultsAtAddress s i t := by
    cases hu.symm.trans h
    exact hf
  rcases usable_or_unbacked_or_outside s a0 with h0 | h0 | h0
  · rcases usable_or_unbacked_or_outside s a1 with h1 | h1 | h1
    · exact .inl ⟨h0, h1⟩
    · exact .inr (hfault (hbad1 h0 h1) ⟨_, _, _, _, _, rfl⟩)
    · exact .inr (hfault (hout1 h0 h1) ⟨_, _, _, _, _, rfl⟩)
  · exact .inr (hfault (hbad0 h0) ⟨_, 0, _, s.acc, _, rfl⟩)
  · exact .inr (hfault (hout0 h0) ⟨_, 0, _, s.acc, s.da, rfl⟩)

end TwoAddress

/-! ### MOV and ADD on two usable cells -/

theorem exec_mov_usable {a0 a1 : Int} {s : State} (hrun : s.status = .running) (h0 : Usable s a0)
    (h1 : Usable s a1) :
    exec (.mov a0 a1) s = .next { fetched s (.mov a0 a1) with
      upc := 3, tc := s.tc + 3, acc := s.cell a0, da := a1, mem := s.storeCell a1 (s.cell a0), pc := s.pc + 1 } := by
  rw [exec_readArg0_usable rfl rfl hrun h0]
  exact (atTick_afterReadArg0 _ a0 hrun).outcome_writeArg1_nextPc rfl h1

theorem exec_add_usable {a0 a1 : Int} {s : State} (hrun : s.status = .running) (h0 : Usable s a0)
    (h1 : Usable s a1) :
    exec (.add a0 a1) s = .next { fetched s (.add a0 a1) with
      upc := 4, tc := s.tc + 4, acc := s.cell a1 + s.cell a0, alu := s.cell a1 + s.cell a0, da := a1,
      mem := s.storeCell a1 (s.cell a1 + s.cell a0), pc := s.pc + 1 } := by
  rw [exec_readArg0_usable rfl rfl hrun h0,
    (atTick_afterReadArg0 _ a0 hrun).runSequence_go _ (perform_aluAdd_usable rfl h1) hrun]
  exact AtTick.outcome_writeArg1_nextPc (k := 2) ⟨hrun, rfl, rfl, rfl⟩ rfl h1

/-- Settles O13: on two usable cells the three ticks of the sequence one after another; its faults are those of every
two-address instruction. -/
theorem movCopiesOneCell : Obligations.MovCopiesOneCell :=
  fun a0 a1 _ hrun => ⟨rfl, rfl, exec_mov_usable hrun, (twoAddress_mov a0 a1).exec_faults hrun⟩

/-! ### The frame -/

/-- A store leaves every cell but the one at its address as it is. -/
theorem State.read_storeCell_other (s : State) {a : Int} (v : Int) (ha : 0 ≤ a) {n : Nat} (hn : (n : Int) ≠ a) :
    (s.storeCell a v).read n = s.mem.read n := Memory.read_write_other s.mem v (by omega)

/-- Settles O25: a fault at an address freezes the state with memory and PC as they were; on two usable cells the next
state is written out, and its memory is one store at a1. -/
theorem movAndAddFrame : Obligations.MovAndAddFrame := by
  intro a0 a1 i s t hi hrun h
  have htwo : ∃ op ops, TwoAddress i a0 a1 op ops := by
    rcases hi with rfl | rfl
    · exact ⟨_, _, twoAddress_mov a0 a1⟩
    · exact ⟨_, _, twoAddress_add a0 a1⟩
  obtain ⟨_, _, htwo⟩ := htwo
  obtain ⟨h0, h1⟩ | ⟨_, _, _, _, _, rfl⟩ := htwo.exec_cases hrun h
  case inl =>
    have hother (v : Int) (n : Nat) (hn : (n : Int) ≠ a1) := s.read_storeCell_other v h1.1 hn
    rcases hi with rfl | rfl
    · cases (exec_mov_usable hrun h0 h1).symm.trans h
      exact ⟨fun _ => rfl, rfl, hother _, rfl, rfl, rfl, rfl, rfl, rfl, .inl rfl⟩
    · cases (exec_add_usable hrun h0 h1).symm.trans h
      exact ⟨nofun, rfl, hother _, rfl, rfl, rfl, rfl, rfl, rfl, .inl rfl⟩
  case inr =>
    exact ⟨fun _ => rfl, rfl, fun _ _ => rfl, rfl, rfl, rfl, rfl, rfl, rfl, .inr ⟨rfl, fun _ => rfl, _, rfl⟩⟩

end Sys2Proof.Machine
end

section
/-!
SUPPORT. The ALU instructions (45_alu_ops R120 to R123), tick by tick: the ALU micro-operations on a usable cell, a tick
that raises, the instructions that follow a pointer, and by these the results, the faults and the frames.
-/

namespace Sys2Proof.Machine

open Claims

/-! ### The micro-operations on a usable cell -/

section UsableCell

variable {s : State} {a : Int}

theorem accessesArg_aluCmp : MicroOp.aluCmp.AccessesArg 1 := ⟨_, perform_aluCmp⟩
theorem accessesArg_aluRem : MicroOp.aluRem.AccessesArg 1 := ⟨_, perform_aluRem⟩

theorem perform_aluCmp_usable (harg : s.args[1]? = some a) (ha : Usable s a) :
    perform .aluCmp s = .go { s with acc := s.cell a - s.acc, alu := s.cell a - s.acc, da := a } := by
  rw [perform_aluCmp, withArg_of_getElem? _ harg, atCell_of_usable _ ha]

theorem perform_aluRem_usable (harg : s.args[1]? = some a) (ha : Usable s a) (hz : s.cell a ≠ 0) :
    perform .aluRem s =
      .go { s with acc := remainderOf s s.acc (s.cell a), alu := remainderOf s s.acc (s.cell a), da := a } := by
  rw [perform_aluRem, withArg_of_getElem? _ harg, atCell_of_usable _ ha, if_neg hz, remBy_eq_remainderOf]

/-- A zero divisor raises with the dividend, which ACC holds; DA is latched by then (40_datapath_alu R73). -/
theorem perform_aluRem_zero (harg : s.args[1]? = some a) (ha : Usable s a) (hz : s.cell a = 0) :
    perform .aluRem s = .raised (frozen (.divideByZero s.acc) { s with da := a }) := by
  rw [perform_aluRem, withArg_of_getElem? _ harg, atCell_of_usable _ ha, if_pos hz]
  rfl

theorem perform_incAtArg0_usable (harg : s.args[0]? = some a) (ha : Usable s a) :
    perform .incAtArg0 s = .go { s with br := s.cell a + 1, alu := s.cell a + 1, da := a } := by
  rw [perform_incAtArg0, withArg_of_getElem? _ harg, atCell_of_usable _ ha]

theorem perform_writeBrArg0_usable (harg : s.args[0]? = some a) (ha : Usable s a) :
    perform .writeBrArg0 s = .go { s with da := a, mem := s.storeCell a s.br } := by
  rw [perform_writeBrArg0, withArg_of_getElem? _ harg, atCell_of_usable _ ha]

theorem perform_readIndirect_usable (ha : Usable s s.acc) :
    perform .readIndirect s = .go { s with acc := s.cell s.acc, da := s.acc } := by
  rw [perform_readIndirect, atCell_of_usable _ ha]

theorem perform_readIndirect_outside (hout : ¬ InLatchRange s s.acc) :
    perform .readIndirect s = .raised (frozen (.dataAddress s.acc) s) := by
  rw [perform_readIndirect, atCell_of_not_inLatchRange _ hout]

theorem perform_readIndirect_unbacked (hbad : Unbacked s s.acc) :
    perform .readIndirect s = .raised (frozen (.unbackedCell s.acc) { s with da := s.acc }) := by
  rw [perform_readIndirect, atCell_of_unbacked _ hbad]

end UsableCell

/-- A raise in a tick ends the sequence; its effect is that of the micro-operation with the ticks of a stop counted. -/
theorem AtTick.runSequence_raised {s u t : State} {k : Nat} {op : MicroOp} (h : AtTick s k u) (ops : List MicroOp)
    (hp : perform op { u with tc := s.tc + stopTicks s (k + 1) } = .raised t) :
    runSequence (op :: ops) u = .raised t := by
  rw [runSequence, invoke, h.tickBefore_eq, hp, Flow.andThen_raised, Flow.andThen_raised]

/-- An instruction has one next state: what is shown of the one written out holds of the one answered. -/
theorem FaultsAtAddress.of_exec {i : Instr} {s t u : State} (hu : exec i s = .next u) (hf : FaultsAtAddress s i u)
    (h : exec i s = .next t) : FaultsAtAddress s i t := by
  cases hu.symm.trans h
  exact hf

/-! ### CMP and REMAINDER -/

section CmpAndRemainder

variable {a0 a1 : Int} {s t : State}

theorem twoAddress_cmp (a0 a1 : Int) : TwoAddress (.cmp a0 a1) a0 a1 .aluCmp [.nextPc] :=
  ⟨rfl, rfl, accessesArg_aluCmp⟩

theorem twoAddress_remainder (a0 a1 : Int) : TwoAddress (.remainder a0 a1) a0 a1 .aluRem [.nextPc] :=
  ⟨rfl, rfl, accessesArg_aluRem⟩

theorem exec_cmp_usable (hrun : s.status = .running) (h0 : Usable s a0) (h1 : Usable s a1) :
    exec (.cmp a0 a1) s = .next { fetched s (.cmp a0 a1) with
      upc := 3, tc := s.tc + 3, acc := s.cell a1 - s.cell a0, alu := s.cell a1 - s.cell a0, da := a1,
      pc := s.pc + 1 } := by
  rw [exec_readArg0_usable rfl rfl hrun h0,
    (atTick_afterReadArg0 _ a0 hrun).runSequence_go _ (perform_aluCmp_usable rfl h1) hrun]
  exact AtTick.outcome_nextPc (k := 2) ⟨hrun, rfl, rfl, rfl⟩

theorem exec_remainder_usable (hrun : s.status = .running) (h0 : Usable s a0) (h1 : Usable s a1)
    (hz : s.cell a1 ≠ 0) :
    exec (.remainder a0 a1) s = .next { fetched s (.remainder a0 a1) with
      upc := 3, tc := s.tc + 3, acc := remainderOf s (s.cell a0) (s.cell a1),
      alu := remainderOf s (s.cell a0) (s.cell a1), da := a1, pc := s.pc + 1 } := by
  rw [exec_readArg0_usable rfl rfl hrun h0,
    (atTick_afterReadArg0 _ a0 hrun).runSequence_go _ (perform_aluRem_usable rfl h1 hz) hrun]
  exact AtTick.outcome_nextPc (k := 2) ⟨hrun, rfl, rfl, rfl⟩

theorem exec_remainder_zero (hrun : s.status = .running) (h0 : Usable s a0) (h1 : Usable s a1)
    (hz : s.cell a1 = 0) :
    exec (.remainder a0 a1) s = .next (frozen (.divideByZero (s.cell a0)) { fetched s (.remainder a0 a1) with
      upc := 1, tc := s.tc + stopTicks s 2, acc := s.cell a0, da := a1 }) := by
  rw [exec_readArg0_usable rfl rfl hrun h0,
    (atTick_afterReadArg0 _ a0 hrun).runSequence_raised _ (perform_aluRem_zero rfl h1 hz)]
  rfl

/-- Settles O14: on two usable cells the three ticks of the sequence one after another; its faults are those of every
two-address instruction. -/
theorem cmpLeavesTheDifference : Obligations.CmpLeavesTheDifference :=
  fun a0 a1 _ hrun => ⟨rfl, rfl, exec_cmp_usable hrun, (twoAddress_cmp a0 a1).exec_faults hrun⟩

/-- Settles O16: the divisor is tested once both cells have been reached, so the address faults are those of every
two-address instruction. -/
theorem remainderLeavesDividendModDivisor : Obligations.RemainderLeavesDividendModDivisor :=
  fun a0 a1 _ hrun => ⟨rfl, rfl, exec_remainder_usable hrun, exec_remainder_zero hrun,
    (twoAddress_remainder a0 a1).exec_faults hrun⟩

/-- Settles O17: the result is that of the four ticks of ADD, its faults those of every two-address instruction. -/
theorem addAccumulatesIntoACell : Obligations.AddAccumulatesIntoACell :=
  fun a0 a1 _ hrun => ⟨rfl, rfl, exec_add_usable hrun, (twoAddress_add a0 a1).exec_faults hrun⟩

/-- CMP and REMAINDER complete with one value in ACC and ALU, or fault before they write ALU. -/
theorem exec_cmp_or_remainder {i : Instr} (hi : i.opcode ∈ [Opcode.cmp, .remainder]) (hrun : s.status = .running)
    (h : exec i s = .next t) :
    (∃ v a1, t = { fetched s i with
      upc := 3, tc := s.tc + 3, acc := v, alu := v, da := a1, pc := s.pc + 1 }) ∨ FaultsAtAddress s i t := by
  cases i with
  | cmp a0 a1 =>
    refine ((twoAddress_cmp a0 a1).exec_cases hrun h).imp_left fun ⟨h0, h1⟩ => ?_
    cases (exec_cmp_usable hrun h0 h1).symm.trans h
    exact ⟨_, _, rfl⟩
  | remainder a0 a1 =>
    obtain ⟨h0, h1⟩ | hfault := (twoAddress_remainder a0 a1).exec_cases hrun h
    · by_cases hz : s.cell a1 = 0
      · exact .inr (.of_exec (exec_remainder_zero hrun h0 h1 hz) ⟨_, _, _, _, _, rfl⟩ h)
      · cases (exec_remainder_usable hrun h0 h1 hz).symm.trans h
        exact .inl ⟨_, _, rfl⟩
    · exact .inr hfault
  | _ => simp [Instr.opcode] at hi

/-- Settles O23: neither way to end writes BR, a cell, IC, a stream or a parameter; a fault leaves PC and ALU too. -/
theorem compareAndRemainderFrame : Obligations.CompareAndRemainderFrame := by
  intro i s t hi hrun h
  obtain ⟨_, _, rfl⟩ | ⟨_, _, _, _, _, rfl⟩ := exec_cmp_or_remainder hi hrun h
  · exact ⟨rfl, fun _ => rfl, rfl, rfl, rfl, rfl, rfl, rfl, .inl rfl⟩
  · exact ⟨rfl, fun _ => rfl, rfl, rfl, rfl, rfl, rfl, rfl, .inr ⟨rfl, rfl, _, rfl⟩⟩

end CmpAndRemainder

/-! ### Instructions that follow the pointer in cell a0 -/

/-- The instruction reads p = M[a0], then M[p], then performs ops (41_microops R87). -/
structure FollowsPointer (i : Instr) (a0 : Int) (ops : List MicroOp) : Prop where
  arg0 : i.args[0]? = some a0
  sequence_eq : microcode i.opcode = .readArg0 :: .readIndirect :: ops

/-- The state after the two ticks of an instruction that have read M[a0] and M[M[a0]]. -/
def afterReadIndirect (s : State) (i : Instr) (a0 : Int) : State :=
  { fetched s i with upc := 2, tc := s.tc + 2, acc := s.cell (s.cell a0), da := s.cell a0 }

theorem atTick_afterReadIndirect {s : State} (i : Instr) (a0 : Int) (hrun : s.status = .running) :
    AtTick s 2 (afterReadIndirect s i a0) := ⟨hrun, rfl, rfl, rfl⟩

section FollowsPointer

variable {i : Instr} {a0 : Int} {ops : List MicroOp} {s t : State}

theorem FollowsPointer.exec_usable (hi : FollowsPointer i a0 ops) (hrun : s.status = .running) (h0 : Usable s a0)
    (hp : Usable s (s.cell a0)) : exec i s = (runSequence ops (afterReadIndirect s i a0)).outcome := by
  rw [exec_readArg0_usable hi.sequence_eq hi.arg0 hrun h0,
    (atTick_afterReadArg0 i a0 hrun).runSequence_go ops (perform_readIndirect_usable hp) hrun]
  rfl

theorem FollowsPointer.exec_pointer_outside (hi : FollowsPointer i a0 ops) (hrun : s.status = .running)
    (h0 : Usable s a0) (hout : ¬ InLatchRange s (s.cell a0)) :
    exec i s = .next (frozen (.dataAddress (s.cell a0)) { fetched s i with
      upc := 1, tc := s.tc + stopTicks s 2, acc := s.cell a0, da := a0 }) := by
  rw [exec_readArg0_usable hi.sequence_eq hi.arg0 hrun h0,
    (atTick_afterReadArg0 i a0 hrun).runSequence_raised ops (perform_readIndirect_outside hout)]
  rfl

theorem FollowsPointer.exec_pointer_unbacked (hi : FollowsPointer i a0 ops) (hrun : s.status = .running)
    (h0 : Usable s a0) (hbad : Unbacked s (s.cell a0)) :
    exec i s = .next (frozen (.unbackedCell (s.cell a0)) { fetched s i with
      upc := 1, tc := s.tc + stopTicks s 2, acc := s.cell a0, da := s.cell a0 }) := by
  rw [exec_readArg0_usable hi.sequence_eq hi.arg0 hrun h0,
    (atTick_afterReadArg0 i a0 hrun).runSequence_raised ops (perform_readIndirect_unbacked hbad)]
  rfl

/-- The pointer's cell and the pointee are usable, or the instruction faults at one of the two addresses. -/
theorem FollowsPointer.exec_cases (hi : FollowsPointer i a0 ops) (hrun : s.status = .running)
    (h : exec i s = .next t) : (Usable s a0 ∧ Usable s (s.cell a0)) ∨ FaultsAtAddress s i t := by
  rcases usable_or_unbacked_or_outside s a0 with h0 | hbad | hout
  · rcases usable_or_unbacked_or_outside s (s.cell a0) with hp | hbad | hout
    · exact .inl ⟨h0, hp⟩
    · exact .inr (.of_exec (hi.exec_pointer_unbacked hrun h0 hbad) ⟨_, _, _, _, _, rfl⟩ h)
    · exact .inr (.of_exec (hi.exec_pointer_outside hrun h0 hout) ⟨_, _, _, _, _, rfl⟩ h)
  · exact .inr (.of_exec (exec_readArg0_unbacked hi.sequence_eq hi.arg0 hrun hbad) ⟨_, 0, _, s.acc, _, rfl⟩ h)
  · exact .inr (.of_exec (exec_readArg0_outside hi.sequence_eq hi.arg0 hrun hout) ⟨_, 0, _, s.acc, s.da, rfl⟩ h)

end FollowsPointer

/-! ### CMP_INDIRECT_INC -/

section CmpIndirectInc

variable {a a0 a1 : Int} {s t u : State} {k : Nat}

/-- The last two ticks of CMP_INDIRECT_INC: BR is stored in the cell, and PC moves on. -/
theorem AtTick.outcome_writeBrArg0_nextPc (h : AtTick s k u) (harg : u.args[0]? = some a) (ha : Usable u a) :
    (runSequence [.writeBrArg0, .nextPc] u).outcome =
      .next { u with
        upc := k + 2, tc := s.tc + (k + 2), da := a, mem := u.storeCell a u.br, pc := u.pc + 1 } := by
  rw [h.runSequence_go _ (perform_writeBrArg0_usable harg ha) h.running]
  exact AtTick.outcome_nextPc ⟨h.running, h.config, rfl, rfl⟩

/-- The last three: the cell is read and incremented before it is written. -/
theorem AtTick.outcome_incAtArg0_writeBrArg0_nextPc (h : AtTick s k u) (harg : u.args[0]? = some a)
    (ha : Usable u a) :
    (runSequence [.incAtArg0, .writeBrArg0, .nextPc] u).outcome =
      .next { u with
        upc := k + 3, tc := s.tc + (k + 3), br := u.cell a + 1, alu := u.cell a + 1, da := a,
        mem := u.storeCell a (u.cell a + 1), pc := u.pc + 1 } := by
  rw [h.runSequence_go _ (perform_incAtArg0_usable harg ha) h.running]
  exact AtTick.outcome_writeBrArg0_nextPc (k := k + 1) ⟨h.running, h.config, rfl, rfl⟩ harg ha

theorem followsPointer_cmpIndirectInc (a0 a1 : Int) :
    FollowsPointer (.cmpIndirectInc a0 a1) a0 [.aluCmp, .incAtArg0, .writeBrArg0, .nextPc] := ⟨rfl, rfl⟩

/-- The cell of the pointer is read again before it is written, so the increment is that of the pointer followed. -/
theorem exec_cmpIndirectInc_usable (hrun : s.status = .running) (h0 : Usable s a0) (hp : Usable s (s.cell a0))
    (h1 : Usable s a1) :
    exec (.cmpIndirectInc a0 a1) s = .next { fetched s (.cmpIndirectInc a0 a1) with
      upc := 6, tc := s.tc + 6, acc := s.cell a1 - s.cell (s.cell a0), alu := s.cell a0 + 1,
      br := s.cell a0 + 1, da := a0, mem := s.storeCell a0 (s.cell a0 + 1), pc := s.pc + 1 } := by
  rw [(followsPointer_cmpIndirectInc a0 a1).exec_usable hrun h0 hp,
    (atTick_afterReadIndirect _ a0 hrun).runSequence_go _ (perform_aluCmp_usable rfl h1) hrun]
  exact AtTick.outcome_incAtArg0_writeBrArg0_nextPc (k := 3) ⟨hrun, rfl, rfl, rfl⟩ rfl h0

theorem exec_cmpIndirectInc_outside (hrun : s.status = .running) (h0 : Usable s a0) (hp : Usable s (s.cell a0))
    (hout : ¬ InLatchRange s a1) :
    exec (.cmpIndirectInc a0 a1) s = .next (frozen (.dataAddress a1) { fetched s (.cmpIndirectInc a0 a1) with
      upc := 2, tc := s.tc + stopTicks s 3, acc := s.cell (s.cell a0), da := s.cell a0 }) := by
  rw [(followsPointer_cmpIndirectInc a0 a1).exec_usable hrun h0 hp,
    (atTick_afterReadIndirect _ a0 hrun).runSequence_outside _ accessesArg_aluCmp rfl hout]
  rfl

theorem exec_cmpIndirectInc_unbacked (hrun : s.status = .running) (h0 : Usable s a0) (hp : Usable s (s.cell a0))
    (hbad : Unbacked s a1) :
    exec (.cmpIndirectInc a0 a1) s = .next (frozen (.unbackedCell a1) { fetched s (.cmpIndirectInc a0 a1) with
      upc := 2, tc := s.tc + stopTicks s 3, acc := s.cell (s.cell a0), da := a1 }) := by
  rw [(followsPointer_cmpIndirectInc a0 a1).exec_usable hrun h0 hp,
    (atTick_afterReadIndirect _ a0 hrun).runSequence_unbacked _ accessesArg_aluCmp rfl hbad]
  rfl

/-- Settles O15: the pointer is followed in the first two ticks and compared in the third, each of which can fault; the
fourth and the fifth reach the cell that the first has reached, so neither can. -/
theorem cmpIndirectIncComparesAndAdvances : Obligations.CmpIndirectIncComparesAndAdvances := by
  intro a0 a1 s hrun
  have hi := followsPointer_cmpIndirectInc a0 a1
  exact ⟨rfl, rfl, exec_cmpIndirectInc_usable hrun, exec_readArg0_outside hi.sequence_eq hi.arg0 hrun,
    exec_readArg0_unbacked hi.sequence_eq hi.arg0 hrun, hi.exec_pointer_outside hrun, hi.exec_pointer_unbacked hrun,
    exec_cmpIndirectInc_outside hrun, exec_cmpIndirectInc_unbacked hrun⟩

/-- All three cells are usable, or CMP_INDIRECT_INC faults at an address. -/
theorem exec_cmpIndirectInc_cases (hrun : s.status = .running) (h : exec (.cmpIndirectInc a0 a1) s = .next t) :
    (Usable s a0 ∧ Usable s (s.cell a0) ∧ Usable s a1) ∨ FaultsAtAddress s (.cmpIndirectInc a0 a1) t := by
  obtain ⟨h0, hp⟩ | hfault := (followsPointer_cmpIndirectInc a0 a1).exec_cases hrun h
  · rcases usable_or_unbacked_or_outside s a1 with h1 | hbad | hout
    · exact .inl ⟨h0, hp, h1⟩
    · exact .inr (.of_exec (exec_cmpIndirectInc_unbacked hrun h0 hp hbad) ⟨_, _, _, _, _, rfl⟩ h)
    · exact .inr (.of_exec (exec_cmpIndirectInc_outside hrun h0 hp hout) ⟨_, _, _, _, _, rfl⟩ h)
  · exact .inr hfault

/-- Settles O26: on usable cells memory is one store at a0; a fault comes before that store and before any write of BR
and ALU. -/
theorem cmpIndirectIncFrame : Obligations.CmpIndirectIncFrame := by
  intro a0 a1 s t hrun h
  obtain ⟨h0, hp, h1⟩ | ⟨_, _, _, _, _, rfl⟩ := exec_cmpIndirectInc_cases hrun h
  · cases (exec_cmpIndirectInc_usable hrun h0 hp h1).symm.trans h
    exact ⟨fun _ => s.read_storeCell_other _ h0.1, rfl, rfl, rfl, rfl, rfl, rfl, .inl rfl⟩
  · exact ⟨fun _ _ => rfl, rfl, rfl, rfl, rfl, rfl, rfl, .inr ⟨rfl, rfl, rfl, fun _ => rfl, _, rfl⟩⟩

end CmpIndirectInc

end Sys2Proof.Machine
end

section
/-!
SUPPORT. ACC is no input (45_alu_ops R124, 70_reset_and_hazards R159): every sequence but those of HLT, JMP and
BRANCH_EQ begins with a micro-operation that loads ACC without reading it, and where that one goes on it leaves the same
state whatever ACC was.
-/

namespace Sys2Proof.Machine

theorem withArg_eq_go_iff {i : Nat} {k : Int → Flow} {s t : State} :
    withArg i k s = .go t ↔ ∃ a, s.args[i]? = some a ∧ k a = .go t := by
  unfold withArg
  cases s.args[i]? with
  | none => simp
  | some a => simp

/-- Only an access that reaches a backed cell goes on. -/
theorem atCell_eq_go_iff {a : Int} {k : State → Flow} {s t : State} :
    atCell a s k = .go t ↔ s.backed a = true ∧ k { s with da := a } = .go t := by
  by_cases hb : s.backed a = true
  · simp [atCell_backed k hb, hb]
  · by_cases hl : inLatchRange s.size a = true
    · simp [atCell_unbacked k hb hl, hb]
    · simp [atCell_outside k hl, hb]

/-- The micro-operations that load ACC from memory or from the input, and do not read it (41_microops R85, R86). -/
def MicroOp.LoadsAcc (op : MicroOp) : Prop := op = .readArg0 ∨ op = .writeFromInput

theorem microcode_begins_loadsAcc {o : Opcode} (ho : o ∉ [Opcode.hlt, .jmp, .branchEq]) :
    ∃ op ops, microcode o = op :: ops ∧ op.LoadsAcc := by
  cases o with
  | hlt | jmp | branchEq => simp at ho
  | inp => exact ⟨_, _, rfl, .inr rfl⟩
  | _ => exact ⟨_, _, rfl, .inl rfl⟩

/-- A load of ACC that goes on leaves the same state whatever ACC was. -/
theorem MicroOp.LoadsAcc.perform_withAcc {op : MicroOp} {s t : State} (hop : op.LoadsAcc)
    (h : perform op s = .go t) (x : Int) : perform op { s with acc := x } = .go t := by
  rcases hop with rfl | rfl
  case inl =>
    rw [perform_readArg0, withArg_eq_go_iff] at h ⊢
    obtain ⟨a, harg, hcell⟩ := h
    exact ⟨a, harg, atCell_eq_go_iff.2 (atCell_eq_go_iff.1 hcell)⟩
  case inr =>
    rw [perform_writeFromInput] at h ⊢
    cases hq : s.queue with
    | nil => simp [hq] at h
    | cons c rest =>
      cases hc : isCharCode (c : Int) with
      | false => simp [hq, hc] at h
      | true =>
        simp only [hq, hc, if_true] at h ⊢
        exact h

/-- Settles O46: a completing instruction did not raise in its first tick, which leaves the same state for every ACC, so
the rest of the sequence runs alike. -/
theorem otherInstructionsForgetTheAccumulator : Obligations.OtherInstructionsForgetTheAccumulator := by
  intro i s t x _ hi h ht
  obtain ⟨op, ops, hops, hop⟩ := microcode_begins_loadsAcc hi
  rw [exec_eq_fetched, hops, runSequence, invoke] at h ⊢
  cases hp : perform op (Claims.fetched s i).tickBefore with
  | go u =>
    have hp' : perform op (Claims.fetched { s with acc := x } i).tickBefore = .go u := hop.perform_withAcc hp x
    rw [hp']
    rwa [hp] at h
  | raised u =>
    have hc := perform_control op (Claims.fetched s i).tickBefore
    rw [hp] at h hc
    cases h
    exact absurd (.inl ht) hc.2.not_completed
  | noArgument j =>
    rw [hp] at h
    cases h

end Sys2Proof.Machine
end

section
/-!
SUPPORT. Input and output (46_io R125 to R129), tick by tick: the micro-operations that emit a token, the one that takes
a character, the four instructions made of them, and by these the results, the frames and the order of the streams.
-/

namespace Sys2Proof.Machine

open Claims

/-! ### The micro-operations that emit a token -/

section Emit

variable {s u : State} {k : Nat}

theorem perform_outChar_charCode (hc : 0 ≤ s.acc ∧ s.acc ≤ 127) :
    perform .outChar s = .go { s with output := s.output ++ [.char s.acc] } := by
  rw [perform_outChar, isCharCode, if_pos (decide_eq_true hc)]

theorem perform_outChar_notCharCode (hc : ¬ (0 ≤ s.acc ∧ s.acc ≤ 127)) :
    perform .outChar s = .raised (frozen (.outputCodeOutOfRange s.acc) s) := by
  rw [perform_outChar, isCharCode, if_neg (mt of_decide_eq_true hc)]
  rfl

/-- The last two ticks of every output instruction: the token is appended, and PC moves on. -/
theorem AtTick.outcome_emit_nextPc {op : MicroOp} {x : Token} (h : AtTick s k u)
    (hp : perform op u.tickBefore = .go { u.tickBefore with output := u.output ++ [x] }) :
    (runSequence [op, .nextPc] u).outcome =
      .next { u with upc := k + 2, tc := s.tc + (k + 2), output := u.output ++ [x], pc := u.pc + 1 } := by
  rw [h.runSequence_go _ hp h.running]
  exact AtTick.outcome_nextPc ⟨h.running, h.config, rfl, rfl⟩

theorem AtTick.outcome_outNum_nextPc (h : AtTick s k u) :
    (runSequence [.outNum, .nextPc] u).outcome =
      .next { u with
        upc := k + 2, tc := s.tc + (k + 2), output := u.output ++ [.num u.acc], pc := u.pc + 1 } :=
  h.outcome_emit_nextPc (perform_outNum _)

theorem AtTick.outcome_outChar_nextPc (h : AtTick s k u) (hc : 0 ≤ u.acc ∧ u.acc ≤ 127) :
    (runSequence [.outChar, .nextPc] u).outcome =
      .next { u with
        upc := k + 2, tc := s.tc + (k + 2), output := u.output ++ [.char u.acc], pc := u.pc + 1 } :=
  h.outcome_emit_nextPc (perform_outChar_charCode hc)

/-- A code outside 0..127 stops the run before a token is appended (40_datapath_alu R78). -/
theorem AtTick.outcome_outChar_notCharCode (h : AtTick s k u) (ops : List MicroOp)
    (hc : ¬ (0 ≤ u.acc ∧ u.acc ≤ 127)) :
    (runSequence (.outChar :: ops) u).outcome =
      .next (frozen (.outputCodeOutOfRange u.acc) { u with tc := s.tc + stopTicks s (k + 1) }) := by
  rw [h.runSequence_raised ops (perform_outChar_notCharCode hc)]
  rfl

end Emit

/-! ### OUT, OUT_CHAR and OUT_INDIRECT -/

section Output

variable {i : Instr} {a0 : Int} {ops : List MicroOp} {s t : State}

/-- Cell a0 is usable, or an instruction that begins by reading it faults at its address. -/
theorem exec_readArg0_cases (hops : microcode i.opcode = .readArg0 :: ops) (harg : i.args[0]? = some a0)
    (hrun : s.status = .running) (h : exec i s = .next t) : Usable s a0 ∨ FaultsAtAddress s i t := by
  rcases usable_or_unbacked_or_outside s a0 with h0 | hbad | hout
  · exact .inl h0
  · exact .inr (.of_exec (exec_readArg0_unbacked hops harg hrun hbad) ⟨_, 0, _, s.acc, _, rfl⟩ h)
  · exact .inr (.of_exec (exec_readArg0_outside hops harg hrun hout) ⟨_, 0, _, s.acc, s.da, rfl⟩ h)

theorem exec_out_usable (hrun : s.status = .running) (h0 : Usable s a0) :
    exec (.out a0) s = .next { fetched s (.out a0) with
      upc := 3, tc := s.tc + 3, acc := s.cell a0, da := a0, output := s.output ++ [.num (s.cell a0)],
      pc := s.pc + 1 } := by
  rw [exec_readArg0_usable rfl rfl hrun h0]
  exact (atTick_afterReadArg0 _ a0 hrun).outcome_outNum_nextPc

theorem exec_outChar_usable (hrun : s.status = .running) (h0 : Usable s a0)
    (hc : 0 ≤ s.cell a0 ∧ s.cell a0 ≤ 127) :
    exec (.outChar a0) s = .next { fetched s (.outChar a0) with
      upc := 3, tc := s.tc + 3, acc := s.cell a0, da := a0, output := s.output ++ [.char (s.cell a0)],
      pc := s.pc + 1 } := by
  rw [exec_readArg0_usable rfl rfl hrun h0]
  exact (atTick_afterReadArg0 _ a0 hrun).outcome_outChar_nextPc hc

theorem exec_outChar_notCharCode (hrun : s.status = .running) (h0 : Usable s a0)
    (hc : ¬ (0 ≤ s.cell a0 ∧ s.cell a0 ≤ 127)) :
    exec (.outChar a0) s = .next (frozen (.outputCodeOutOfRange (s.cell a0)) { fetched s (.outChar a0) with
      upc := 1, tc := s.tc + stopTicks s 2, acc := s.cell a0, da := a0 }) := by
  rw [exec_readArg0_usable rfl rfl hrun h0]
  exact (atTick_afterReadArg0 _ a0 hrun).outcome_outChar_notCharCode _ hc

theorem followsPointer_outIndirect (a0 : Int) : FollowsPointer (.outIndirect a0) a0 [.outChar, .nextPc] := ⟨rfl, rfl⟩

theorem exec_outIndirect_usable (hrun : s.status = .running) (h0 : Usable s a0) (hp : Usable s (s.cell a0))
    (hc : 0 ≤ s.cell (s.cell a0) ∧ s.cell (s.cell a0) ≤ 127) :
    exec (.outIndirect a0) s = .next { fetched s (.outIndirect a0) with
      upc := 4, tc := s.tc + 4, acc := s.cell (s.cell a0), da := s.cell a0,
      output := s.output ++ [.char (s.cell (s.cell a0))], pc := s.pc + 1 } := by
  rw [(followsPointer_outIndirect a0).exec_usable hrun h0 hp]
  exact (atTick_afterReadIndirect _ a0 hrun).outcome_outChar_nextPc hc

theorem exec_outIndirect_notCharCode (hrun : s.status = .running) (h0 : Usable s a0) (hp : Usable s (s.cell a0))
    (hc : ¬ (0 ≤ s.cell (s.cell a0) ∧ s.cell (s.cell a0) ≤ 127)) :
    exec (.outIndirect a0) s =
      .next (frozen (.outputCodeOutOfRange (s.cell (s.cell a0))) { fetched s (.outIndirect a0) with
        upc := 2, tc := s.tc + stopTicks s 3, acc := s.cell (s.cell a0), da := s.cell a0 }) := by
  rw [(followsPointer_outIndirect a0).exec_usable hrun h0 hp]
  exact (atTick_afterReadIndirect _ a0 hrun).outcome_outChar_notCharCode _ hc

/-- Settles O19: the three ticks one after another; no tick after the first can fault. -/
theorem outAppendsANumber : Obligations.OutAppendsANumber :=
  fun _ _ hrun => ⟨rfl, rfl, exec_out_usable hrun, exec_readArg0_outside rfl rfl hrun,
    exec_readArg0_unbacked rfl rfl hrun⟩

/-- Settles O20: the code decides how the second tick ends, once the first has reached the cell. -/
theorem outCharAppendsACharacter : Obligations.OutCharAppendsACharacter :=
  fun _ _ hrun => ⟨rfl, rfl, fun h0 hlo hhi => exec_outChar_usable hrun h0 ⟨hlo, hhi⟩,
    exec_outChar_notCharCode hrun, exec_readArg0_outside rfl rfl hrun, exec_readArg0_unbacked rfl rfl hrun⟩

/-- Settles O21: the address faults are those of every instruction that follows the pointer in cell a0; the code decides
how the third tick ends. -/
theorem outIndirectAppendsThePointee : Obligations.OutIndirectAppendsThePointee := by
  intro a0 s hrun
  have hi := followsPointer_outIndirect a0
  exact ⟨rfl, rfl, fun h0 hp hlo hhi => exec_outIndirect_usable hrun h0 hp ⟨hlo, hhi⟩,
    exec_outIndirect_notCharCode hrun, exec_readArg0_outside hi.sequence_eq hi.arg0 hrun,
    exec_readArg0_unbacked hi.sequence_eq hi.arg0 hrun, hi.exec_pointer_outside hrun, hi.exec_pointer_unbacked hrun⟩

/-- The token an output instruction appends for the value in ACC (46_io R126 to R128). -/
def tokenOf (o : Opcode) (v : Int) : Token := if o = .out then .num v else .char v

/-- i has completed with ACC output, and no more than UPC, TC, ACC, DA, O and PC written since its fetch. -/
def EmitsAcc (s : State) (i : Instr) (t : State) : Prop :=
  ∃ upc tc acc da, t = { fetched s i with
    upc := upc, tc := tc, acc := acc, da := da, output := s.output ++ [tokenOf i.opcode acc], pc := s.pc + 1 }

theorem EmitsAcc.of_exec {u : State} (hu : exec i s = .next u) (he : EmitsAcc s i u) (h : exec i s = .next t) :
    EmitsAcc s i t := by
  cases hu.symm.trans h
  exact he

/-- An output instruction emits one token, or faults before it writes O. -/
theorem exec_output_cases (hi : i.opcode ∈ [Opcode.out, .outChar, .outIndirect]) (hrun : s.status = .running)
    (h : exec i s = .next t) : EmitsAcc s i t ∨ FaultsAtAddress s i t := by
  cases i with
  | out a0 =>
    obtain h0 | hfault := exec_readArg0_cases rfl rfl hrun h
    · exact .inl (.of_exec (exec_out_usable hrun h0) ⟨_, _, _, _, rfl⟩ h)
    · exact .inr hfault
  | outChar a0 =>
    obtain h0 | hfault := exec_readArg0_cases rfl rfl hrun h
    · by_cases hc : 0 ≤ s.cell a0 ∧ s.cell a0 ≤ 127
      · exact .inl (.of_exec (exec_outChar_usable hrun h0 hc) ⟨_, _, _, _, rfl⟩ h)
      · exact .inr (.of_exec (exec_outChar_notCharCode hrun h0 hc) ⟨_, _, _, _, _, rfl⟩ h)
    · exact .inr hfault
  | outIndirect a0 =>
    obtain ⟨h0, hp⟩ | hfault := (followsPointer_outIndirect a0).exec_cases hrun h
    · by_cases hc : 0 ≤ s.cell (s.cell a0) ∧ s.cell (s.cell a0) ≤ 127
      · exact .inl (.of_exec (exec_outIndirect_usable hrun h0 hp hc) ⟨_, _, _, _, rfl⟩ h)
      · exact .inr (.of_exec (exec_outIndirect_notCharCode hrun h0 hp hc) ⟨_, _, _, _, _, rfl⟩ h)
    · exact .inr hfault
  | _ => simp [Instr.opcode] at hi

/-- Settles O24: neither way to end writes BR, ALU, a cell, IC, Q or a parameter; a fault leaves PC and O too. -/
theorem outputInstructionsFrame : Obligations.OutputInstructionsFrame := by
  intro i s t hi hrun h
  obtain ⟨_, _, _, _, rfl⟩ | ⟨_, _, _, _, _, rfl⟩ := exec_output_cases hi hrun h
  · exact ⟨rfl, rfl, fun _ => rfl, rfl, rfl, rfl, rfl, rfl, .inl rfl⟩
  · exact ⟨rfl, rfl, fun _ => rfl, rfl, rfl, rfl, rfl, rfl, .inr ⟨rfl, rfl, _, rfl⟩⟩

end Output

/-! ### IN -/

section Input

variable {a0 : Int} {c : Nat} {rest : List Nat} {s t : State}

theorem perform_writeFromInput_nil (hq : s.queue = []) :
    perform .writeFromInput s = .raised (s.stopWith .inputExhausted) := by
  rw [perform_writeFromInput, hq]

theorem perform_writeFromInput_notCharCode (hq : s.queue = c :: rest) (hc : 127 < c) :
    perform .writeFromInput s = .raised (frozen (.inputCode c) { s with queue := rest }) := by
  rw [perform_writeFromInput, hq]
  exact if_neg (mt isCharCode_natCast.1 (Nat.not_le.2 hc))

/-- The character is in ACC, and gone from the queue, before the address is latched (41_microops R86). -/
theorem perform_writeFromInput_charCode (hq : s.queue = c :: rest) (hc : c ≤ 127) (harg : s.args[0]? = some a0) :
    perform .writeFromInput s =
      atCell a0 { s with queue := rest, acc := (c : Int) } fun t => .go { t with mem := s.storeCell a0 c } := by
  rw [perform_writeFromInput, hq]
  exact (if_pos (isCharCode_natCast.2 hc)).trans (withArg_of_getElem? _ harg)

theorem perform_writeFromInput_usable (hq : s.queue = c :: rest) (hc : c ≤ 127) (harg : s.args[0]? = some a0)
    (h0 : Usable s a0) :
    perform .writeFromInput s =
      .go { s with queue := rest, acc := (c : Int), da := a0, mem := s.storeCell a0 c } :=
  (perform_writeFromInput_charCode hq hc harg).trans (atCell_of_usable _ h0)

theorem perform_writeFromInput_outside (hq : s.queue = c :: rest) (hc : c ≤ 127) (harg : s.args[0]? = some a0)
    (hout : ¬ InLatchRange s a0) :
    perform .writeFromInput s = .raised (frozen (.dataAddress a0) { s with queue := rest, acc := (c : Int) }) :=
  (perform_writeFromInput_charCode hq hc harg).trans (atCell_of_not_inLatchRange _ hout)

theorem perform_writeFromInput_unbacked (hq : s.queue = c :: rest) (hc : c ≤ 127) (harg : s.args[0]? = some a0)
    (hbad : Unbacked s a0) :
    perform .writeFromInput s =
      .raised (frozen (.unbackedCell a0) { s with queue := rest, acc := (c : Int), da := a0 }) :=
  (perform_writeFromInput_charCode hq hc harg).trans (atCell_of_unbacked _ hbad)

/-- IN stops in its first tick or not at all. -/
theorem exec_inp_raised (hrun : s.status = .running)
    (hp : perform .writeFromInput { fetched s (.inp a0) with tc := s.tc + stopTicks s 1 } = .raised t) :
    exec (.inp a0) s = .next t :=
  congrArg Flow.outcome ((atTick_fetched (.inp a0) hrun).runSequence_raised [.nextPc] hp)

theorem exec_inp_nil (hrun : s.status = .running) (hq : s.queue = []) :
    exec (.inp a0) s =
      .next { fetched s (.inp a0) with tc := s.tc + stopTicks s 1, status := .stopped .inputExhausted } :=
  exec_inp_raised hrun (perform_writeFromInput_nil hq)

theorem exec_inp_notCharCode (hrun : s.status = .running) (hq : s.queue = c :: rest) (hc : 127 < c) :
    exec (.inp a0) s =
      .next (frozen (.inputCode c) { fetched s (.inp a0) with tc := s.tc + stopTicks s 1, queue := rest }) :=
  exec_inp_raised hrun (perform_writeFromInput_notCharCode hq hc)

theorem exec_inp_outside (hrun : s.status = .running) (hq : s.queue = c :: rest) (hc : c ≤ 127)
    (hout : ¬ InLatchRange s a0) :
    exec (.inp a0) s = .next (frozen (.dataAddress a0) { fetched s (.inp a0) with
      tc := s.tc + stopTicks s 1, queue := rest, acc := (c : Int) }) :=
  exec_inp_raised hrun (perform_writeFromInput_outside hq hc rfl hout)

theorem exec_inp_unbacked (hrun : s.status = .running) (hq : s.queue = c :: rest) (hc : c ≤ 127)
    (hbad : Unbacked s a0) :
    exec (.inp a0) s = .next (frozen (.unbackedCell a0) { fetched s (.inp a0) with
      tc := s.tc + stopTicks s 1, queue := rest, acc := (c : Int), da := a0 }) :=
  exec_inp_raised hrun (perform_writeFromInput_unbacked hq hc rfl hbad)

theorem exec_inp_usable (hrun : s.status = .running) (hq : s.queue = c :: rest) (hc : c ≤ 127) (h0 : Usable s a0) :
    exec (.inp a0) s = .next { fetched s (.inp a0) with
      upc := 2, tc := s.tc + 2, queue := rest, acc := (c : Int), da := a0, mem := s.storeCell a0 c,
      pc := s.pc + 1 } := by
  refine (congrArg Flow.outcome ((atTick_fetched (.inp a0) hrun).runSequence_go [.nextPc]
    (perform_writeFromInput_usable hq hc rfl h0) hrun)).trans ?_
  exact AtTick.outcome_nextPc (k := 1) ⟨hrun, rfl, rfl, rfl⟩

/-- Settles O18: the queue, the code and the address are tested in that order, all of them in the first tick. -/
theorem inReadsOneCharacter : Obligations.InReadsOneCharacter :=
  fun _ _ hrun => ⟨rfl, rfl, exec_inp_nil hrun, fun _ _ hq =>
    ⟨exec_inp_usable hrun hq, exec_inp_notCharCode hrun hq, exec_inp_outside hrun hq, exec_inp_unbacked hrun hq⟩⟩

/-- IN has stopped with the front of Q gone, and no more than TC, ACC and DA written besides since its fetch. -/
def StopsInInput (s : State) (a0 : Int) (t : State) : Prop :=
  ∃ cause tc acc da rest, s.queue.tail = rest ∧ t =
    State.stopWith { fetched s (.inp a0) with tc := tc, acc := acc, da := da, queue := rest } cause

/-- IN stores the front of the queue in cell a0, or stops before it writes memory. -/
theorem exec_inp_cases (hrun : s.status = .running) (h : exec (.inp a0) s = .next t) :
    (∃ c rest, s.queue = c :: rest ∧ Usable s a0 ∧ t = { fetched s (.inp a0) with
      upc := 2, tc := s.tc + 2, queue := rest, acc := (c : Int), da := a0, mem := s.storeCell a0 c,
      pc := s.pc + 1 }) ∨ StopsInInput s a0 t := by
  cases hq : s.queue with
  | nil =>
    cases (exec_inp_nil hrun hq).symm.trans h
    exact .inr ⟨.inputExhausted, s.tc + stopTicks s 1, s.acc, s.da, s.queue, by rw [hq]; rfl, rfl⟩
  | cons c rest =>
    have hrest : s.queue.tail = rest := congrArg List.tail hq
    by_cases hc : c ≤ 127
    case pos =>
      rcases usable_or_unbacked_or_outside s a0 with h0 | hbad | hout
      · cases (exec_inp_usable hrun hq hc h0).symm.trans h
        exact .inl ⟨c, rest, rfl, h0, rfl⟩
      · cases (exec_inp_unbacked hrun hq hc hbad).symm.trans h
        exact .inr ⟨.fault (.unbackedCell a0), _, _, _, rest, hrest, rfl⟩
      · cases (exec_inp_outside hrun hq hc hout).symm.trans h
        exact .inr ⟨.fault (.dataAddress a0), _, _, s.da, rest, hrest, rfl⟩
    case neg =>
      cases (exec_inp_notCharCode hrun hq (Nat.not_le.1 hc)).symm.trans h
      exact .inr ⟨.fault (.inputCode c), _, s.acc, s.da, rest, hrest, rfl⟩

/-- Settles O27: completing, memory is one store at a0; a stop comes before that store. -/
theorem inFrame : Obligations.InFrame := by
  intro a0 s t hrun h
  obtain ⟨c, rest, hq, h0, rfl⟩ | ⟨cause, _, _, _, rest, hrest, rfl⟩ := exec_inp_cases hrun h
  · exact ⟨rfl, rfl, fun _ => s.read_storeCell_other _ h0.1, rfl, rfl, (congrArg List.tail hq).symm, rfl, rfl, rfl,
      .inl rfl⟩
  · refine ⟨rfl, rfl, fun _ _ => rfl, rfl, rfl, hrest.symm, rfl, rfl, rfl, .inr ⟨rfl, fun _ => rfl, ?_⟩⟩
    cases cause with
    | inputExhausted => exact .inl rfl
    | fault c => exact .inr ⟨_, rfl⟩

end Input

/-! ### The streams -/

section Streams

variable {i : Instr} {s t : State}

/-- The instructions that neither take a character nor emit a token leave both streams: their frames say so. -/
theorem exec_streams_of_notIo (hi : i.opcode ∉ [Opcode.inp, .out, .outChar, .outIndirect])
    (hrun : s.status = .running) (h : exec i s = .next t) : t.queue = s.queue ∧ t.output = s.output := by
  cases i with
  | hlt | jmp a0 | branchEq a0 =>
    obtain ⟨-, -, -, -, -, -, hqueue, houtput, -⟩ := controlInstructionsFrame _ s t (by simp [Instr.opcode]) hrun h
    exact ⟨hqueue, houtput⟩
  | cmp a0 a1 | remainder a0 a1 =>
    obtain ⟨-, -, -, hqueue, houtput, -⟩ := compareAndRemainderFrame _ s t (by simp [Instr.opcode]) hrun h
    exact ⟨hqueue, houtput⟩
  | mov a0 a1 | add a0 a1 =>
    obtain ⟨-, -, -, -, hqueue, houtput, -⟩ := movAndAddFrame a0 a1 _ s t (by simp) hrun h
    exact ⟨hqueue, houtput⟩
  | cmpIndirectInc a0 a1 =>
    obtain ⟨-, -, hqueue, houtput, -⟩ := cmpIndirectIncFrame a0 a1 s t hrun h
    exact ⟨hqueue, houtput⟩
  | inp a0 | out a0 | outChar a0 | outIndirect a0 => simp [Instr.opcode] at hi

theorem Instr.eq_inp_of_opcode (hi : i.opcode = .inp) : ∃ a0, i = .inp a0 := by
  cases i with
  | inp a0 => exact ⟨a0, rfl⟩
  | _ => simp [Instr.opcode] at hi

/-- IN takes the front of the queue, and no other instruction touches it. -/
theorem exec_queue (hrun : s.status = .running) (h : exec i s = .next t) :
    t.queue = if i.opcode = .inp then s.queue.tail else s.queue := by
  by_cases hout : i.opcode ∈ [Opcode.out, .outChar, .outIndirect]
  · obtain ⟨-, -, -, -, hqueue, -⟩ := outputInstructionsFrame i s t hout hrun h
    rw [hqueue, if_neg fun hin => by simp [hin] at hout]
  · by_cases hin : i.opcode = .inp
    · obtain ⟨a0, rfl⟩ := Instr.eq_inp_of_opcode hin
      obtain ⟨-, -, -, -, -, hqueue, -⟩ := inFrame a0 s t hrun h
      exact hqueue
    · rw [if_neg hin]
      exact (exec_streams_of_notIo (List.not_mem_cons_of_ne_of_not_mem hin hout) hrun h).1

/-- An output instruction that completes appends its token, and nothing else touches the output. -/
theorem exec_output (hrun : s.status = .running) (h : exec i s = .next t) :
    t.output =
      if i.opcode ∈ [Opcode.out, .outChar, .outIndirect] ∧ t.status = .running then
        s.output ++ [tokenOf i.opcode t.acc]
      else s.output := by
  by_cases hout : i.opcode ∈ [Opcode.out, .outChar, .outIndirect]
  · obtain ⟨_, _, _, _, rfl⟩ | ⟨_, _, _, _, _, rfl⟩ := exec_output_cases hout hrun h
    · exact (if_pos ⟨hout, hrun⟩).symm
    · exact (if_neg fun hboth => nomatch hboth.2).symm
  · rw [if_neg fun hboth => hout hboth.1]
    by_cases hin : i.opcode = .inp
    · obtain ⟨a0, rfl⟩ := Instr.eq_inp_of_opcode hin
      obtain ⟨-, -, -, -, houtput, -⟩ := inFrame a0 s t hrun h
      exact houtput
    · exact (exec_streams_of_notIo (List.not_mem_cons_of_ne_of_not_mem hin hout) hrun h).2

theorem exec_streams_grow (hrun : s.status = .running) (h : exec i s = .next t) :
    s.output <+: t.output ∧ t.queue <:+ s.queue := by
  rw [exec_queue hrun h, exec_output hrun h]
  constructor
  · split
    · exact List.prefix_append _ _
    · exact List.prefix_rfl
  · split
    · exact List.tail_suffix _
    · exact List.suffix_rfl

theorem step_streams_grow (h : step s = .next t) : s.output <+: t.output ∧ t.queue <:+ s.queue := by
  obtain ⟨hrun, ⟨-, rfl⟩ | ⟨_, i, -, -, hexec⟩⟩ := step_cases h
  · exact ⟨List.prefix_rfl, List.suffix_rfl⟩
  · exact exec_streams_grow (s := s.countInstruction) hrun hexec

theorem Reaches.streams_grow (h : Reaches s t) : s.output <+: t.output ∧ t.queue <:+ s.queue := by
  induction h with
  | refl => exact ⟨List.prefix_rfl, List.suffix_rfl⟩
  | tail _ hstep ih =>
    obtain ⟨houtput, hqueue⟩ := step_streams_grow hstep
    exact ⟨ih.1.trans houtput, hqueue.trans ih.2⟩

/-- Settles O49: one equation per stream gives what an instruction does to it, and by induction on the steps a run only
appends to the output and only drops from the front of the input. -/
theorem streamsMoveInProgramOrder : Obligations.StreamsMoveInProgramOrder := by
  refine ⟨fun i s t hrun h => ?_, fun _ _ => Reaches.streams_grow⟩
  have hqueue := exec_queue hrun h
  have houtput := exec_output hrun h
  refine ⟨fun hin => hqueue.trans (if_pos hin), fun hin => hqueue.trans (if_neg hin), fun hnone => ?_,
    fun hout hcompleted => houtput.trans (if_pos ⟨hout, hcompleted⟩)⟩
  exact houtput.trans (if_neg fun ⟨hout, hcompleted⟩ => hnone.elim (· hout) (· hcompleted))

end Streams

end Sys2Proof.Machine
end

section
/-!
SUPPORT. Stops (60_exceptions R130 to R139, R152): which micro-operation can raise which cause, what a raise says of the
state it freezes, and by the ROM which instruction can stop with what.
-/

namespace Sys2Proof.Machine

open Claims

/-! ### A stopped state -/

theorem step_of_stopped {s : State} {o : StopOutcome} (h : s.status = .stopped o) : step s = .fault (.runEnded o) := by
  rw [step, stepWith, h]

theorem step_ne_fault {s : State} (hrun : s.status = .running) (f : Fault) : step s ≠ .fault f := by
  cases hslot : s.slotAtPc with
  | none =>
    rw [step_fetchFault hrun hslot]
    nofun
  | some r =>
    cases hdec : decode r with
    | error e =>
      rw [step_of_running hrun, stepRunning, hslot]
      simp [hdec]
    | ok i =>
      obtain ⟨t, ht⟩ := execAlwaysAnswersANextState i s.countInstruction
      rw [step_decoded hrun hslot hdec, ht]
      nofun

/-- Settles O6: STATUS decides; a running state faults in its fetch or runs an instruction, and both answer a next
state. -/
theorem stoppedStatesHaveNoNextStep : Obligations.StoppedStatesHaveNoNextStep :=
  fun _ => ⟨fun _ => step_of_stopped, step_ne_fault⟩

/-- Settles O42: the two tables are read cause by cause. -/
theorem faultKindsAndCodes : Obligations.FaultKindsAndCodes := by
  intro c
  cases c <;> rfl

/-! ### What a micro-operation raises -/

/-- The micro-operations that latch an address and reach the cell there (41_microops R85 to R94). -/
def MicroOp.reachesCell (op : MicroOp) : Bool :=
  op ∈ [.readArg0, .writeFromInput, .readIndirect, .writeArg1, .writeArg0, .writeBrArg0, .aluCmp, .aluRem, .aluAdd,
    .incAtArg0]

/-- The causes op can raise, and what t, the state frozen, says of an access at S (60_exceptions R134 to R139). -/
inductive MicroOp.Raises (op : MicroOp) (t : State) : StopCause → Prop where
  | noInput (hop : op = .writeFromInput) : Raises op t .inputExhausted
  | inputCode (c : Nat) (hop : op = .writeFromInput) : Raises op t (.fault (.inputCode c))
  | dataAddress (a : Int) (hop : op.reachesCell = true) : Raises op t (.fault (.dataAddress a))
  | unbackedCell (a : Int) (hop : op.reachesCell = true) (hbad : Unbacked t a) (hda : t.da = a) :
      Raises op t (.fault (.unbackedCell a))
  | zeroDivisor (v : Int) (hop : op = .aluRem) : Raises op t (.fault (.divideByZero v))
  | outputCode (v : Int) (hop : op = .outChar) : Raises op t (.fault (.outputCodeOutOfRange v))

/-- t is frozen by a raise of op, with PC as given. -/
structure RaisedBy (op : MicroOp) (pc : Int) (t : State) : Prop where
  pc_eq : t.pc = pc
  cause : ∃ c, t.status = .stopped (t.outcomeOf c) ∧ op.Raises t c

theorem State.stopWith_raisedBy {op : MicroOp} {s : State} {c : StopCause} (h : op.Raises (s.stopWith c) c) :
    RaisedBy op s.pc (s.stopWith c) := ⟨rfl, c, rfl, h⟩

/-- Both faults of an access are raised by the micro-operation that makes it, so only what follows at a backed cell is
left to show. -/
theorem atCell_raisedBy {op : MicroOp} {a : Int} {s : State} {k : State → Flow} {go : State → Prop}
    (hop : op.reachesCell = true) (hk : (k { s with da := a }).Yields go (RaisedBy op s.pc)) :
    (atCell a s k).Yields go (RaisedBy op s.pc) := by
  by_cases hl : inLatchRange s.size a = true
  · by_cases hb : s.backed a = true
    · rwa [atCell_backed k hb]
    · rw [atCell_unbacked k hb hl]
      exact State.stopWith_raisedBy (s := { s with da := a })
        (.unbackedCell a hop (State.eq_size_of_not_backed hl hb) rfl)
  · rw [atCell_outside k hl]
    exact State.stopWith_raisedBy (.dataAddress a hop)

/-- PC is written by the micro-operations at the end of a sequence alone, which raise nothing; the causes of a raise are
those of the table. -/
theorem perform_raisedBy (op : MicroOp) (s : State) :
    (perform op s).Yields (fun t => endsSequence op = false → t.pc = s.pc) (RaisedBy op s.pc) := by
  cases op
  case readArg0 => exact perform_readArg0 s ▸ withArg_yields fun _ => atCell_raisedBy rfl fun _ => rfl
  case writeFromInput =>
    rw [perform_writeFromInput]
    cases s.queue with
    | nil => exact State.stopWith_raisedBy (.noInput rfl)
    | cons c rest =>
      cases hc : isCharCode (c : Int) with
      | false =>
        simp only [hc]
        exact State.stopWith_raisedBy (s := { s with queue := rest }) (.inputCode c rfl)
      | true =>
        simp only [hc, if_true]
        exact withArg_yields fun _ =>
          atCell_raisedBy (s := { s with queue := rest, acc := (c : Int) }) rfl fun _ => rfl
  case readIndirect => exact perform_readIndirect s ▸ atCell_raisedBy rfl fun _ => rfl
  case writeArg1 => exact perform_writeArg1 s ▸ withArg_yields fun _ => atCell_raisedBy rfl fun _ => rfl
  case writeArg0 => exact perform_writeArg0 s ▸ withArg_yields fun _ => atCell_raisedBy rfl fun _ => rfl
  case writeBrArg0 => exact perform_writeBrArg0 s ▸ withArg_yields fun _ => atCell_raisedBy rfl fun _ => rfl
  case aluCmp => exact perform_aluCmp s ▸ withArg_yields fun _ => atCell_raisedBy rfl fun _ => rfl
  case aluRem =>
    refine perform_aluRem s ▸ withArg_yields fun a => atCell_raisedBy rfl ?_
    by_cases hz : s.cell a = 0
    · rw [if_pos hz]
      exact State.stopWith_raisedBy (s := { s with da := a }) (.zeroDivisor s.acc rfl)
    · rw [if_neg hz]
      exact fun _ => rfl
  case aluAdd => exact perform_aluAdd s ▸ withArg_yields fun _ => atCell_raisedBy rfl fun _ => rfl
  case incAtArg0 => exact perform_incAtArg0 s ▸ withArg_yields fun _ => atCell_raisedBy rfl fun _ => rfl
  case outNum => exact perform_outNum s ▸ fun _ => rfl
  case outChar =>
    rw [perform_outChar]
    cases isCharCode s.acc with
    | false => exact State.stopWith_raisedBy (.outputCode s.acc rfl)
    | true => exact fun _ => rfl
  case nextPc => exact perform_nextPc s ▸ nofun
  case jump => exact perform_jump s ▸ withArg_yields fun _ => nofun
  case halt => exact perform_halt s ▸ nofun
  case branchIfZero =>
    rw [perform_branchIfZero]
    by_cases hz : s.acc = 0
    · rw [if_pos hz]
      exact withArg_yields fun _ => nofun
    · rw [if_neg hz]
      exact nofun

/-! ### Which sequences hold which micro-operation (42_control_unit R103) -/

theorem eq_hlt_of_halt_mem {i : Instr} (h : .halt ∈ microcode i.opcode) : i = .hlt := by
  cases i <;> simp [Instr.opcode, microcode] at h ⊢

theorem opcode_of_writeFromInput_mem {o : Opcode} (h : .writeFromInput ∈ microcode o) : o = .inp := by
  cases o <;> simp [microcode] at h ⊢

theorem opcode_of_aluRem_mem {o : Opcode} (h : .aluRem ∈ microcode o) : o = .remainder := by
  cases o <;> simp [microcode] at h ⊢

theorem opcode_of_outChar_mem {o : Opcode} (h : .outChar ∈ microcode o) : o ∈ [Opcode.outChar, .outIndirect] := by
  cases o <;> simp [microcode] at h ⊢

theorem opcode_of_reachesCell_mem {o : Opcode} {op : MicroOp} (h : op ∈ microcode o) (hop : op.reachesCell = true) :
    o ∉ [Opcode.hlt, .jmp, .branchEq] := by
  intro ho
  have hcontrol : ∀ o ∈ [Opcode.hlt, .jmp, .branchEq], ∀ op ∈ microcode o, op.reachesCell = false := by decide
  simp [hcontrol o ho op h] at hop

/-! ### How an instruction ends -/

/-- Inside i, which began in s, before ops, the rest of its sequence: nothing has been raised, and PC is that of s until
the last micro-operation. -/
structure BeforeRest (s : State) (i : Instr) (ops : List MicroOp) (u : State) : Prop where
  rest : ops ⊆ microcode i.opcode
  pcWriteLast : ∀ op ∈ ops.dropLast, endsSequence op = false
  pc : ops ≠ [] → u.pc = s.pc
  status : u.status = .running ∨ (i = .hlt ∧ u.status = .stopped .halted)

/-- i, which began in s, has stopped in a raise of one of its micro-operations. -/
def StopsInSequence (s : State) (i : Instr) (t : State) : Prop := ∃ op ∈ microcode i.opcode, RaisedBy op s.pc t

/-- Of a sequence with its write of PC at the end, the first micro-operation does not write PC if others follow, and the
rest has its write of PC at the end. -/
theorem pcWriteLast_cons {op : MicroOp} {ops : List MicroOp}
    (h : ∀ o ∈ (op :: ops).dropLast, endsSequence o = false) :
    (ops ≠ [] → endsSequence op = false) ∧ ∀ o ∈ ops.dropLast, endsSequence o = false := by
  cases ops with
  | nil => simp
  | cons o ops =>
    obtain ⟨hfirst, hrest⟩ := List.forall_mem_cons.1 h
    exact ⟨fun _ => hfirst, hrest⟩

theorem invoke_beforeRest {s : State} {i : Instr} (op : MicroOp) (ops : List MicroOp) (u : State)
    (h : BeforeRest s i (op :: ops) u) : (invoke op u).Yields (BeforeRest s i ops) (StopsInSequence s i) := by
  have hmem : op ∈ microcode i.opcode := h.rest List.mem_cons_self
  have hpc : u.pc = s.pc := h.pc (List.cons_ne_nil _ _)
  obtain ⟨hfirst, hlast⟩ := pcWriteLast_cons h.pcWriteLast
  have hraise := perform_raisedBy op u.tickBefore
  have hstatus := perform_status op u.tickBefore
  unfold invoke
  cases hf : perform op u.tickBefore with
  | noArgument j => trivial
  | raised t =>
    rw [hf] at hraise
    exact ⟨op, hmem, hpc ▸ hraise⟩
  | go t =>
    rw [hf] at hraise hstatus
    refine ⟨List.Subset.trans (List.subset_cons_self _ _) h.rest, hlast,
      fun hne => (hraise (hfirst hne)).trans hpc, ?_⟩
    by_cases hop : op = .halt
    · exact .inr ⟨eq_hlt_of_halt_mem (hop ▸ hmem), hstatus.trans (if_pos hop)⟩
    · have hsame : t.status = u.status := hstatus.trans (if_neg hop)
      exact h.status.imp hsame.trans fun ⟨hi, hu⟩ => ⟨hi, hsame.trans hu⟩

/-- An instruction runs to its end, where HLT alone has halted, or stops in a raise inside its sequence. -/
theorem exec_status_cases {i : Instr} {s t : State} (hrun : s.status = .running) (h : exec i s = .next t) :
    (t.status = .running ∨ (i = .hlt ∧ t.status = .stopped .halted)) ∨ StopsInSequence s i t := by
  rw [exec_eq] at h
  have hstart : BeforeRest s i (microcode i.opcode) (s.latchInstr i.opcode i.args) :=
    ⟨List.Subset.refl _, not_endsSequence_of_mem_dropLast_microcode _, fun _ => rfl, .inl hrun⟩
  exact (Flow.yields_of_outcome (runSequence_yields invoke_beforeRest hstart) h).imp_left BeforeRest.status

section

variable {i : Instr} {s t : State}

theorem exec_halted_iff (hrun : s.status = .running) (h : exec i s = .next t) :
    t.status = .stopped .halted ↔ i = .hlt := by
  constructor
  · intro ht
    rcases exec_status_cases hrun h with (hgoes | ⟨hi, -⟩) | ⟨op, -, -, c, hc, -⟩
    · simp [ht] at hgoes
    · exact hi
    · cases c <;> simp [ht] at hc
  · rintro rfl
    cases (exec_hlt s).symm.trans h
    rfl

/-- A fault of an instruction is a raise of one of its micro-operations, with PC as the instruction found it. -/
theorem exec_fault {r : FaultRecord} (hrun : s.status = .running) (h : exec i s = .next t)
    (hr : t.status = .stopped (.fault r)) :
    t.pc = s.pc ∧ ∃ op ∈ microcode i.opcode, op.Raises t (.fault r.cause) := by
  rcases exec_status_cases hrun h with (hgoes | ⟨-, hhalted⟩) | ⟨op, hop, hpc, c, hc, hraises⟩
  · simp [hr] at hgoes
  · simp [hr] at hhalted
  · cases c with
    | inputExhausted => simp [hr] at hc
    | fault c =>
      obtain rfl : r = _ := by simpa [hr] using hc
      exact ⟨hpc, op, hop, hraises⟩

/-- A queue with a character in it is not exhausted, however IN ends (46_io R125). -/
theorem exec_inp_not_exhausted {a0 : Int} {c : Nat} {rest : List Nat} (hrun : s.status = .running)
    (hq : s.queue = c :: rest) (h : exec (.inp a0) s = .next t) : t.status ≠ .stopped .inputExhausted := by
  by_cases hc : c ≤ 127
  case neg =>
    cases (exec_inp_notCharCode hrun hq (Nat.not_le.1 hc)).symm.trans h
    nofun
  case pos =>
    rcases usable_or_unbacked_or_outside s a0 with h0 | hbad | hout
    · cases (exec_inp_usable hrun hq hc h0).symm.trans h
      exact fun ht => nomatch hrun.symm.trans ht
    · cases (exec_inp_unbacked hrun hq hc hbad).symm.trans h
      nofun
    · cases (exec_inp_outside hrun hq hc hout).symm.trans h
      nofun

theorem exec_inputExhausted (hrun : s.status = .running) (h : exec i s = .next t)
    (ht : t.status = .stopped .inputExhausted) : i.opcode = .inp ∧ s.queue = [] := by
  have hin : i.opcode = .inp := by
    rcases exec_status_cases hrun h with (hgoes | ⟨-, hhalted⟩) | ⟨op, hop, -, c, hc, hraises⟩
    · simp [ht] at hgoes
    · simp [ht] at hhalted
    · cases hraises with
      | noInput hread => exact opcode_of_writeFromInput_mem (hread ▸ hop)
      | _ => simp [ht] at hc
  refine ⟨hin, ?_⟩
  obtain ⟨a0, rfl⟩ := Instr.eq_inp_of_opcode hin
  cases hq : s.queue with
  | nil => rfl
  | cons c rest => exact absurd ht (exec_inp_not_exhausted hrun hq h)

end

/-! ### The statements -/

/-- Settles O43: a fault is raised by a micro-operation of the instruction's sequence, and the ROM says which sequences
hold one that can raise its cause. -/
theorem eachStopComesFromItsOpcodes : Obligations.EachStopComesFromItsOpcodes := by
  refine fun i s t hrun h => ⟨exec_halted_iff hrun h, exec_inputExhausted hrun h, fun ⟨cause, x⟩ hr => ?_⟩
  obtain ⟨-, op, hop, hraises⟩ := exec_fault hrun h hr
  cases hraises with
  | inputCode c hread =>
    have hin : i.opcode = .inp := opcode_of_writeFromInput_mem (hread ▸ hop)
    exact ⟨.inl rfl, fun _ => by simp [hin], nofun, nofun, fun _ _ => hin⟩
  | dataAddress a hreach | unbackedCell a hreach =>
    exact ⟨.inl rfl, fun _ => opcode_of_reachesCell_mem hop hreach, nofun, nofun, nofun⟩
  | zeroDivisor v hrem =>
    exact ⟨.inr (.inl rfl), nofun, fun _ => opcode_of_aluRem_mem (hrem ▸ hop), nofun, nofun⟩
  | outputCode v hout =>
    exact ⟨.inr (.inr rfl), nofun, nofun, fun _ => opcode_of_outChar_mem (hout ▸ hop), nofun⟩

/-- Settles O44: an access is made at the latched address, which is no backed cell only at S, and no instruction writes
S or the parameter. -/
theorem unbackedCellFaultsOnlyAtSize : Obligations.UnbackedCellFaultsOnlyAtSize := by
  intro i s t a x hrun h hr
  obtain ⟨-, op, -, hraises⟩ := exec_fault hrun h hr
  obtain ⟨-, hsize, hconfig, -⟩ := exec_sameParameters h
  cases hraises with
  | unbackedCell _ _ hbad hda => exact ⟨hsize ▸ hbad.1, hconfig ▸ hbad.2, hda⟩

/-- A step that ends in a fault leaves PC at the instruction that faulted (60_exceptions R131). -/
theorem step_fault_pc {s t : State} {r : FaultRecord} (h : step s = .next t) (hr : t.status = .stopped (.fault r)) :
    t.pc = s.pc := by
  obtain ⟨hrun, ⟨-, rfl⟩ | ⟨_, i, -, -, hexec⟩⟩ := step_cases h
  · rfl
  · exact (exec_fault (s := s.countInstruction) hrun hexec hr).1

/-- Settles O41: a raise records the context of the state it freezes, and comes before its instruction writes PC. -/
theorem faultsRecordTheirContext : Obligations.FaultsRecordTheirContext := by
  refine fun s t r h hr => ⟨step_fault_context h hr, step_fault_pc h hr, fun u => ?_⟩
  rw [step_of_stopped hr]
  nofun

end Sys2Proof.Machine
end

section
/-!
SUPPORT. The launch and the run (70_reset_and_hazards R153, R154; 60_exceptions R149 to R151): a launched state meets
the invariant, the harness loop from such a state ends in one of two ways, and the report says which end it was.
-/

namespace Sys2Proof.Machine

open Claims

/-! ### The launch -/

theorem firstMalformedFrom_eq_none_iff {i : Nat} {p : List Record} :
    firstMalformedFrom i p = none ↔ ∀ r ∈ p, r.wf = true := by
  induction p generalizing i with
  | nil => simp [firstMalformedFrom]
  | cons r p ih => cases hr : r.wf <;> simp [firstMalformedFrom, hr, ih]

theorem launchCheck_eq_none_iff {l : Launch} :
    launchCheck l = none ↔ 0 < l.size ∧ (l.data.length : Int) ≤ l.size ∧ ∀ r ∈ l.program, r.wf = true := by
  unfold launchCheck
  split
  case isTrue hsize => exact iff_of_false nofun fun h => absurd h.1 (by omega)
  case isFalse hsize =>
    split
    case isTrue hdata => exact iff_of_false nofun fun h => absurd h.2.1 (by omega)
    case isFalse hdata =>
      have hprogram : (∀ r ∈ l.program, r.wf = true) ↔ firstMalformed l.program = none :=
        firstMalformedFrom_eq_none_iff.symm
      rw [hprogram]
      cases firstMalformed l.program with
      | none => exact iff_of_true rfl ⟨by omega, by omega, rfl⟩
      | some i => simp

theorem launch_eq_ok_iff {l : Launch} {s : State} : launch l = .ok s ↔ launchCheck l = none ∧ bootState l = s := by
  unfold launch
  cases launchCheck l <;> simp

/-- What the launch checks is what the invariant needs of the launch parameters. -/
theorem bootState_inv {l : Launch} (h : launchCheck l = none) : (bootState l).Inv := by
  obtain ⟨hsize, hdata, hprogram⟩ := launchCheck_eq_none_iff.1 h
  have hcells : 0 + l.data.length ≤ (bootState l).cellCount := by
    have hfit : l.data.length ≤ l.size.toNat := by omega
    unfold State.cellCount cellCountOf
    split
    · exact (Nat.zero_add _).trans_le hfit
    · exact (Nat.zero_add _).trans_le (hfit.trans (Nat.le_succ _))
  exact {
    size_pos := Int.pos_iff_toNat_pos.1 hsize
    da_nonneg := le_rfl
    da_le_size := Int.natCast_nonneg _
    mem_wf := Memory.wfAbove_ofData 0 l.data
    mem_below := Memory.below_ofData l.data hcells
    program_wf := hprogram
    output_wf := nofun
    current_fits := ⟨rfl, rfl⟩
    fault_context := nofun }

theorem launch_inv {l : Launch} {s : State} (h : launch l = .ok s) : s.Inv := by
  obtain ⟨hcheck, rfl⟩ := launch_eq_ok_iff.1 h
  exact bootState_inv hcheck

theorem launch_running {l : Launch} {s : State} (h : launch l = .ok s) : s.status = .running := by
  obtain ⟨-, rfl⟩ := launch_eq_ok_iff.1 h
  rfl

theorem launch_ic {l : Launch} {s : State} (h : launch l = .ok s) : s.ic = 0 := by
  obtain ⟨-, rfl⟩ := launch_eq_ok_iff.1 h
  rfl

/-! ### The harness loop -/

theorem Reaches.head {s t u : State} (h : step s = .next t) (hu : Reaches t u) : Reaches s u := by
  induction hu with
  | refl => exact .tail (.refl s) h
  | tail _ hstep ih => exact .tail ih hstep

theorem drive_at_ceiling {ceiling : Int} {s : State} (fuel : Nat) (h : ceiling ≤ (s.ic : Int)) :
    drive ceiling fuel s = s.runaway ceiling := by
  cases fuel <;> rw [drive, if_pos h]

theorem drive_step_running {ceiling : Int} {fuel : Nat} {s t : State} (h : (s.ic : Int) < ceiling)
    (hstep : step s = .next t) (ht : t.status = .running) : drive ceiling (fuel + 1) s = drive ceiling fuel t := by
  rw [drive, if_neg (not_le.2 h), hstep]
  simp only [ht]

theorem drive_step_stopped {ceiling : Int} {fuel : Nat} {s t : State} {o : StopOutcome} (h : (s.ic : Int) < ceiling)
    (hstep : step s = .next t) (ht : t.status = .stopped o) : drive ceiling (fuel + 1) s = t := by
  rw [drive, if_neg (not_le.2 h), hstep]
  simp only [ht]

/-- No step raises the runaway fault, which is the harness's own (60_exceptions R138). -/
theorem step_not_runaway {s t : State} {c : Int} {x : Context} (h : step s = .next t) :
    t.status ≠ .stopped (.fault { cause := .runawayExecution c, context := x }) := by
  intro hr
  obtain ⟨hrun, ⟨-, rfl⟩ | ⟨_, i, -, -, hexec⟩⟩ := step_cases h
  · cases hr
  · obtain ⟨-, _, -, hraises⟩ := exec_fault (s := s.countInstruction) hrun hexec hr
    cases hraises

/-- The last state of the loop from s: a step has stopped the run by the ceiling, or the loop has frozen a state that
runs at the ceiling (60_exceptions R149). -/
inductive DriveEnds (ceiling : Int) (s : State) : State → Prop where
  | stopped {t : State} (reached : Reaches s t) (status : t.status ≠ .running)
      (own : ∀ c x, t.status ≠ .stopped (.fault { cause := .runawayExecution c, context := x }))
      (ic : (t.ic : Int) ≤ max ceiling s.ic) : DriveEnds ceiling s t
  | runaway {t : State} (reached : Reaches s t) (status : t.status = .running)
      (ic : (t.ic : Int) = max ceiling s.ic) : DriveEnds ceiling s (t.runaway ceiling)

/-- A step below the ceiling comes before the rest of the loop. -/
theorem DriveEnds.head {ceiling : Int} {s t u : State} (h : (s.ic : Int) < ceiling) (hstep : step s = .next t)
    (ht : DriveEnds ceiling t u) : DriveEnds ceiling s u := by
  have hic := step_ic hstep
  have hmax : max ceiling (t.ic : Int) = max ceiling s.ic := by omega
  cases ht with
  | stopped reached status own ic => exact .stopped (reached.head hstep) status own (hmax ▸ ic)
  | runaway reached status ic => exact .runaway (reached.head hstep) status (hmax ▸ ic)

theorem driveEnds_at_ceiling {ceiling : Int} {s : State} (fuel : Nat) (hrun : s.status = .running)
    (h : ceiling ≤ (s.ic : Int)) : DriveEnds ceiling s (drive ceiling fuel s) := by
  rw [drive_at_ceiling fuel h]
  exact .runaway (.refl s) hrun (max_eq_right h).symm

/-- Every running state that meets the invariant has a next step, which counts one instruction, so the fuel up to the
ceiling suffices. -/
theorem drive_ends {ceiling : Int} {fuel : Nat} {s : State} (hinv : s.Inv) (hrun : s.status = .running)
    (hfuel : ceiling ≤ (s.ic : Int) + fuel) : DriveEnds ceiling s (drive ceiling fuel s) := by
  induction fuel generalizing s with
  | zero => exact driveEnds_at_ceiling 0 hrun (by omega)
  | succ fuel ih =>
    by_cases hceiling : ceiling ≤ (s.ic : Int)
    case pos => exact driveEnds_at_ceiling _ hrun hceiling
    case neg =>
      have hlt : (s.ic : Int) < ceiling := not_le.1 hceiling
      obtain ⟨t, hstep⟩ := runningStatesAlwaysStep s hinv hrun
      have hic := step_ic hstep
      cases ht : t.status with
      | running =>
        rw [drive_step_running hlt hstep ht]
        exact (ih (stepKeepsTheInvariant s t hinv hstep) ht (by omega)).head hlt hstep
      | stopped o =>
        rw [drive_step_stopped hlt hstep ht]
        exact .stopped (.tail (.refl s) hstep) (by simp [ht]) (fun _ _ => step_not_runaway hstep) (by omega)

theorem finalState_ends {l : Launch} {s : State} (h : launch l = .ok s) : DriveEnds l.ceiling s (finalState l s) :=
  drive_ends (launch_inv h) (launch_running h) (by omega)

/-- Settles O57: a run that a step stops has counted no more than the ceiling, and one that the loop stops exactly the
ceiling; with a ceiling of 0 or less the loop stops before any step. -/
theorem everyRunEndsWithinTheCeiling : Obligations.EveryRunEndsWithinTheCeiling := by
  intro l s h
  have hic0 := launch_ic h
  have hzero : l.ceiling ≤ 0 → finalState l s = frozen (.runawayExecution l.ceiling) s :=
    fun hceiling => drive_at_ceiling _ (by omega)
  have hmax : max l.ceiling (s.ic : Int) = max l.ceiling 0 := by rw [hic0]; rfl
  have hends := finalState_ends h
  generalize finalState l s = f at hends hzero ⊢
  cases hends with
  | stopped _ hstatus hown hic =>
    exact ⟨hstatus, hmax ▸ hic, fun c x hr => absurd hr (hown c x), hzero⟩
  | runaway _ _ hic =>
    have hexact := hic.trans hmax
    exact ⟨nofun, hexact.le, fun c x hr => ⟨by cases hr; rfl, hexact⟩, hzero⟩

/-- Settles O58: each end of the loop is a state reached by steps, or such a state frozen. -/
theorem finalStateIsReachedBySteps : Obligations.FinalStateIsReachedBySteps := by
  intro l s h
  have hends := finalState_ends h
  generalize finalState l s = f at hends ⊢
  cases hends with
  | stopped hreached => exact ⟨_, hreached, .inl rfl⟩
  | runaway hreached hrun => exact ⟨_, hreached, .inr ⟨hrun, rfl⟩⟩

/-! ### The report -/

theorem run_of_launch_error {l : Launch} {r : FaultRecord} (h : launch l = .error r) : run l = some (.fatal r) := by
  rw [run, h]

theorem run_of_launch_ok {l : Launch} {s : State} (h : launch l = .ok s) : run l = (finalState l s).report := by
  rw [run, h]

theorem State.report_halted {s : State} (h : s.status = .stopped .halted) :
    s.report = some (.completed (outputText s.output) s.ic s.tc false) := by
  rw [State.report, h]

theorem State.report_inputExhausted {s : State} (h : s.status = .stopped .inputExhausted) :
    s.report = some (.completed (outputText s.output) s.ic s.tc true) := by
  rw [State.report, h]

theorem State.report_fault {s : State} {r : FaultRecord} (h : s.status = .stopped (.fault r)) :
    s.report = some (.fatal r) := by
  rw [State.report, h]

/-- The text is the renderings one after another, with no separator (60_exceptions R150, D10). -/
theorem outputText_eq (o : List Token) : outputText o = (o.map Token.render).flatten := List.flatMap_def

/-- Settles O59: a launch that fails is the report, and of one that succeeds the final STATUS decides it. -/
theorem runReportsItsResult : Obligations.RunReportsItsResult := by
  refine fun l => ⟨fun _ => run_of_launch_error, fun s h => ?_⟩
  rw [run_of_launch_ok h, ← outputText_eq]
  exact ⟨State.report_halted, State.report_inputExhausted, fun _ => State.report_fault⟩

end Sys2Proof.Machine
end

section
/-!
SUPPORT. The reset (70_reset_and_hazards R153 to R155): each launch check by what it reports, the cells of the initial
memory, and the fetch at PC = 0.
-/

namespace Sys2Proof.Machine

/-! ### The launch checks -/

/-- The search stops at the first record that is malformed, the ones before it being well formed. -/
theorem firstMalformedFrom_eq_some {i k : Nat} {p : List Record} {r : Record} (hr : p[k]? = some r)
    (hbad : r.wf = false) (hbefore : ∀ (j : Nat) (q : Record), j < k → p[j]? = some q → q.wf = true) :
    firstMalformedFrom i p = some (i + k) := by
  induction p generalizing i k with
  | nil => cases hr
  | cons q p ih =>
    cases k with
    | zero =>
      obtain rfl : q = r := Option.some.inj hr
      simp [firstMalformedFrom, hbad]
    | succ k =>
      have hq : q.wf = true := hbefore 0 q k.succ_pos rfl
      have htail := ih (i := i + 1) hr fun j x hj hx => hbefore (j + 1) x (Nat.succ_lt_succ hj) hx
      rw [firstMalformedFrom, if_pos hq, htail, Nat.add_right_comm, Nat.add_assoc]

theorem launchCheck_of_size_nonpos {l : Launch} (hsize : l.size ≤ 0) :
    launchCheck l = some (.nonPositiveMemorySize l.size) := if_pos hsize

theorem launchCheck_of_data_too_long {l : Launch} (hsize : 0 < l.size) (hdata : l.size < (l.data.length : Int)) :
    launchCheck l = some (.initialDataTooLong l.data.length) := by
  rw [launchCheck, if_neg (not_le.2 hsize), if_pos hdata]

/-- Past the first two checks the search of the program decides. -/
theorem launchCheck_of_malformed {l : Launch} {k : Nat} (hsize : 0 < l.size) (hdata : (l.data.length : Int) ≤ l.size)
    (hk : firstMalformed l.program = some k) : launchCheck l = some (.malformedProgram k) := by
  rw [launchCheck, if_neg (not_le.2 hsize), if_neg (not_lt.2 hdata), hk]

/-- A check that fails is the fault of the launch, in the context of no instruction (70_reset_and_hazards R153). -/
theorem launch_of_check_failed {l : Launch} {c : FaultCause} (h : launchCheck l = some c) :
    launch l = .error { cause := c, context := { pc := 0, tc := 0, ic := 0 } } := by
  rw [launch, h]

/-- Settles O53: each clause is the branch of the launch checks that its premises choose. -/
theorem launchChecksInOrder : Obligations.LaunchChecksInOrder := by
  refine fun l => ⟨fun hsize => ?_, fun hsize hdata => ?_, fun hsize hdata k r hr hbad hbefore => ?_,
    fun hsize hdata hprogram => ?_⟩
  · exact launch_of_check_failed (launchCheck_of_size_nonpos hsize)
  · exact launch_of_check_failed (launchCheck_of_data_too_long hsize hdata)
  · have hk : firstMalformed l.program = some k :=
      (firstMalformedFrom_eq_some hr hbad hbefore).trans (congrArg some (Nat.zero_add k))
    exact launch_of_check_failed (launchCheck_of_malformed hsize hdata hk)
  · exact ⟨bootState l, launch_eq_ok_iff.2 ⟨launchCheck_eq_none_iff.2 ⟨hsize, hdata, hprogram⟩, rfl⟩⟩

/-! ### The invariant at reset -/

/-- Settles O51: the launch checks are what the invariant asks of the launch parameters. -/
theorem launchEstablishesTheInvariant : Obligations.LaunchEstablishesTheInvariant :=
  fun _ _ => launch_inv

/-- Settles O50: State.reset is the state after reset of the smallest launch, which passes the checks. -/
theorem resetMeetsTheInvariant : Obligations.ResetMeetsTheInvariant :=
  bootState_inv (l := { program := [], size := 1, data := [], input := [], ceiling := 0 }) rfl

/-! ### The initial memory -/

/-- The first value lies in the first cell, also where it is the unlisted value and so has no entry. -/
theorem Memory.read_ofData_first (i : Nat) (v : Int) (vs : List Int) :
    Memory.read (Memory.ofData i (v :: vs)) i = v := by
  unfold Memory.ofData
  split
  case isTrue hv => rw [hv, Memory.read_of_lt i.lt_succ_self (Memory.wfAbove_ofData (i + 1) vs)]
  case isFalse => exact Memory.read_cons_self i v _

theorem Memory.read_ofData_rest {i a : Nat} (v : Int) (vs : List Int) (h : i ≠ a) :
    Memory.read (Memory.ofData i (v :: vs)) a = Memory.read (Memory.ofData (i + 1) vs) a := by
  rw [Memory.ofData]
  split
  case isTrue => rfl
  case isFalse => rw [Memory.read_cons, if_neg h]

/-- Cell i + n holds the value at n, or 0 past the end of the data (20_memory R34). -/
theorem Memory.read_ofData (i n : Nat) (vs : List Int) : Memory.read (Memory.ofData i vs) (i + n) = vs.getD n 0 := by
  induction vs generalizing i n with
  | nil => rfl
  | cons v vs ih =>
    cases n with
    | zero => exact Memory.read_ofData_first i v vs
    | succ n =>
      calc Memory.read (Memory.ofData i (v :: vs)) (i + (n + 1))
        _ = Memory.read (Memory.ofData (i + 1) vs) (i + (n + 1)) := Memory.read_ofData_rest v vs (by omega)
        _ = Memory.read (Memory.ofData (i + 1) vs) (i + 1 + n) := by rw [Nat.add_right_comm, Nat.add_assoc]
        _ = vs.getD n 0 := ih (i + 1) n

theorem bootState_read (l : Launch) (n : Nat) : (bootState l).mem.read n = l.data.getD n 0 := by
  rw [← Memory.read_ofData 0 n l.data, Nat.zero_add]
  rfl

/-- Settles O54: the fields are those of State.reset but for the launch parameters; S is the size asked for because the
checks refuse a negative one. -/
theorem launchedStateIsTheResetState : Obligations.LaunchedStateIsTheResetState := by
  intro l s h
  obtain ⟨hcheck, rfl⟩ := launch_eq_ok_iff.1 h
  obtain ⟨hsize, -, -⟩ := launchCheck_eq_none_iff.1 hcheck
  have hcells : ((bootState l).size : Int) = l.size := Int.toNat_of_nonneg hsize.le
  exact ⟨rfl, rfl, rfl, rfl, bootState_read l, rfl, rfl, rfl, rfl, rfl, rfl, rfl, rfl, rfl, rfl, hcells, rfl⟩

/-! ### The first fetch -/

/-- Reset leaves PC at 0, so the first fetch reads the first record (70_reset_and_hazards R155). -/
theorem bootState_slotAtPc (l : Launch) : (bootState l).slotAtPc = l.program[0]? := rfl

/-- Settles O56: the first record is the slot of the fetch, and it decodes because the launch checked it; an empty
program has no slot there. -/
theorem firstStepFetchesSlotZero : Obligations.FirstStepFetchesSlotZero := by
  intro l s h
  obtain ⟨hcheck, rfl⟩ := launch_eq_ok_iff.1 h
  obtain ⟨-, -, hprogram⟩ := launchCheck_eq_none_iff.1 hcheck
  refine ⟨fun r rest hp => ?_, fun hp => ?_⟩
  · obtain ⟨i, hdec⟩ := exists_decode_eq_ok_iff.2 (hprogram r (by simp [hp]))
    have hslot : (bootState l).slotAtPc = some r := by simp [bootState_slotAtPc, hp]
    exact ⟨i, hdec, step_decoded (launch_running h) hslot hdec⟩
  · have hslot : (bootState l).slotAtPc = none := by simp [bootState_slotAtPc, hp]
    exact step_fetchFault (launch_running h) hslot

end Sys2Proof.Machine
end
